-- ==== Sys2Proof/Word.lean ====
section
/-! DEFINITION. The words of the machine. Every value is unsigned and bit 0 is its least significant
bit (spec/00_scope.md section 5, spec/20_memory.md R34). -/

namespace Sys2Proof

/-- The content of one V register: 8 bits (10_state.md R10). -/
abbrev Byte := BitVec 8

/-- The content of I, of PC or of one stack entry: 16 bits (10_state.md R18, R19, R22). -/
abbrev Word := BitVec 16

/-- A general-register index. It has 4 bits, so that no index outside 0 to 15 exists
(10_state.md R13, 30_encoding.md R47). -/
abbrev RegIndex := BitVec 4

/-- The operation code of a command word (30_encoding.md R46). -/
abbrev Opcode := BitVec 4

/-- One command word, `cmd[23:0]` (30_encoding.md R46). -/
abbrev CommandWord := BitVec 24

end Sys2Proof
end

