-- ==== Sys2Proof/Config.lean ====
section
/-! DEFINITION. The parameters of 00_scope.md R4 that fix the block, each under its name with the literal
the source prints (92_eei_decisions.md D13). `STACK_CAPACITY`, the one parameter a model takes as an
argument (D8), is the field `stackCapacity` of `Machine.State`. The spec leaves no value free, so there is
no free value here. -/

namespace Sys2Proof

/-- `NUM_V`: the number of general registers. The width of `RegIndex` and the length of
`Machine.State.v` are fixed to match (notes/assumptions/5.md). -/
def Config.numV : Nat := 16

/-- `V_WIDTH`: the width of a V register, fixed by `Byte` (notes/assumptions/5.md). -/
def Config.vWidth : Nat := 8

/-- `ADDR_WIDTH`: the width of I, PC and a stack entry, fixed by `Word` (notes/assumptions/5.md). -/
def Config.addrWidth : Nat := 16

/-- `ADDR_MEANINGFUL`: informative only, no rule of the block uses it (00_scope.md R4). The caller
obligation of 70_reset_and_hazards.md R131 is stated with it in Safety.lean. -/
def Config.addrMeaningful : Nat := 12

/-- `FLAG_INDEX`: the register that VF names (10_state.md R14). -/
def Config.flagIndex : RegIndex := 0xF#4

/-- `RESET_PC`: the value of PC after reset (10_state.md R26). -/
def Config.resetPc : Word := 0x0200#16

/-- `PC_STEP`: what INCPC adds to PC (42_program_counter.md R82). -/
def Config.pcStep : Word := 2#16

/-- `STACK_NOMINAL_DEPTH`: PUSH reports when the length before it is strictly greater
(43_call_stack.md R90, 90_conflicts.md C1). -/
def Config.stackNominalDepth : Nat := 16

/-- `UNDERFLOW_VALUE`: what POP returns on an empty stack (43_call_stack.md R91). -/
def Config.underflowValue : Word := 0x0000#16

/-- The least `STACK_CAPACITY` a finite build may have (43_call_stack.md R94). -/
def Config.minStackCapacity : Nat := 20

end Sys2Proof
end

