-- ==== Sys2Proof/Syntax.lean ====
section
/-! DEFINITION. The eleven commands of the block, one constructor per row of spec/opcode_table.json, in its
order (00_scope.md section 1, 30_encoding.md R49). Operands are typed at exactly the width of their field
(R47, R50, R52), so every term is a well-formed command. -/

namespace Sys2Proof

/-- A command of the block: the unit a step executes. -/
inductive Instr where
  /-- `GETV Vx`, `get V(x)`. -/
  | getv (x : RegIndex)
  /-- `SETV Vx, b`, `set V(x, value)`. -/
  | setv (x : RegIndex) (b : Byte)
  /-- `GETVF`, `get VF()`. -/
  | getvf
  /-- `SETVF b`, `set VF(value)`. -/
  | setvf (b : Byte)
  /-- `GETI`, `get I()`. -/
  | geti
  /-- `SETI w`, `set I(value)`. -/
  | seti (w : Word)
  /-- `GETPC`, `get PC()`. -/
  | getpc
  /-- `SETPC w`, `set PC(value)`. -/
  | setpc (w : Word)
  /-- `INCPC`, `increment PC()`. -/
  | incpc
  /-- `PUSH w`, `push stack(value)`. -/
  | push (w : Word)
  /-- `POP`, `pop stack()`. -/
  | pop
deriving DecidableEq, Repr

end Sys2Proof
end

