-- ==== Sys2Proof/WellFormed.lean ====
section
/-! DEFINITION. What is well formed before anything runs: a command word (30_encoding.md R48, R49, R53) and
the capacity of a build (43_call_stack.md R94). A term of `Instr` needs no check, since its operands have
exactly the width of their fields. -/

namespace Sys2Proof

/-- One row of the opcode map of 30_encoding.md R49 (spec/opcode_table.json). `pattern` is its `match`. -/
structure OpcodeRow where
  mnemonic : String
  mask : CommandWord
  pattern : CommandWord
  returnsValue : Bool
deriving DecidableEq, Repr

/-- "A word `w` encodes the command of a row exactly when `(w AND mask) = match`" (R49). -/
def OpcodeRow.selects (r : OpcodeRow) (w : CommandWord) : Bool :=
  w &&& r.mask == r.pattern

/-- The row of a command, as the table of 30_encoding.md R49 prints it. -/
def Instr.row : Instr → OpcodeRow
  | .getv _ => ⟨"GETV", 0xF0FFFF#24, 0x000000#24, true⟩
  | .setv _ _ => ⟨"SETV", 0xF0FF00#24, 0x100000#24, false⟩
  | .getvf => ⟨"GETVF", 0xFFFFFF#24, 0x200000#24, true⟩
  | .setvf _ => ⟨"SETVF", 0xFFFF00#24, 0x300000#24, false⟩
  | .geti => ⟨"GETI", 0xFFFFFF#24, 0x400000#24, true⟩
  | .seti _ => ⟨"SETI", 0xFF0000#24, 0x500000#24, false⟩
  | .getpc => ⟨"GETPC", 0xFFFFFF#24, 0x600000#24, true⟩
  | .setpc _ => ⟨"SETPC", 0xFF0000#24, 0x700000#24, false⟩
  | .incpc => ⟨"INCPC", 0xFFFFFF#24, 0x800000#24, false⟩
  | .push _ => ⟨"PUSH", 0xFF0000#24, 0x900000#24, false⟩
  | .pop => ⟨"POP", 0xFFFFFF#24, 0xA00000#24, true⟩

/-- The opcode map: the eleven rows, in the order of 30_encoding.md R49. -/
def opcodeRows : List OpcodeRow :=
  [(Instr.getv 0).row, (Instr.setv 0 0).row, Instr.getvf.row, (Instr.setvf 0).row, Instr.geti.row,
    (Instr.seti 0).row, Instr.getpc.row, (Instr.setpc 0).row, Instr.incpc.row, (Instr.push 0).row,
    Instr.pop.row]

/-- A command word is well formed when it matches a row; every other word is reserved (R49, R53). -/
def wellFormedWord (w : CommandWord) : Bool :=
  opcodeRows.any (·.selects w)

/-- A build's `STACK_CAPACITY` is unbounded or at least 20 (43_call_stack.md R94, D8). -/
def wellFormedCapacity : Option Nat → Bool
  | none => true
  | some c => Config.minStackCapacity ≤ c

end Sys2Proof
end

