-- ==== Sys2Proof/Decode.lean ====
section
/-! DEFINITION. Decoding a command word, total on all 2^24 words and refusing by name, and encoding a
command (30_encoding.md R46 to R53). The encoding is the spec's own, not CHIP-8's (R46 and section 1). -/

namespace Sys2Proof

/-- Why the decoder refuses: the cases of 30_encoding.md R53. -/
inductive Reject where
  /-- R53 (a): `op` is 0xB to 0xF. -/
  | reservedOpcode
  /-- R53 (b): the format has no index and `x` is not zero. -/
  | indexNotZero
  /-- R53 (b): the format has no data and `d` is not zero. -/
  | dataNotZero
  /-- R53 (b), R52: the format has a byte operand and `d[15:8]` is not zero. -/
  | dataHighNotZero
  /-- A serialised command word of fewer than three bytes (20_memory.md R34); no word of the port is
  refused so. -/
  | truncated
deriving DecidableEq, Repr

/-! ## The fields of a command word (R46, R50) -/

/-- `op = cmd[23:20]`. -/
def opField (w : CommandWord) : Opcode := w.extractLsb' 20 4

/-- `x = cmd[19:16]`. -/
def indexField (w : CommandWord) : RegIndex := w.extractLsb' 16 4

/-- `d = cmd[15:0]`. -/
def dataField (w : CommandWord) : Word := w.extractLsb' 0 16

/-- `d[15:8] = cmd[15:8]`. -/
def dataHighField (w : CommandWord) : Byte := w.extractLsb' 8 8

/-- `d[7:0] = cmd[7:0]`. -/
def byteField (w : CommandWord) : Byte := w.extractLsb' 0 8

/-! ## The five formats (R48): a field shown as 0 must be zero -/

/-- Format N: no operand. -/
def decodeN (i : Instr) (w : CommandWord) : Except Reject Instr :=
  if indexField w ≠ 0 then .error .indexNotZero
  else if dataField w ≠ 0 then .error .dataNotZero
  else .ok i

/-- Format X: a register index. -/
def decodeX (mk : RegIndex → Instr) (w : CommandWord) : Except Reject Instr :=
  if dataField w ≠ 0 then .error .dataNotZero
  else .ok (mk (indexField w))

/-- Format XB: a register index and a byte. -/
def decodeXB (mk : RegIndex → Byte → Instr) (w : CommandWord) : Except Reject Instr :=
  if dataHighField w ≠ 0 then .error .dataHighNotZero
  else .ok (mk (indexField w) (byteField w))

/-- Format B: a byte. -/
def decodeB (mk : Byte → Instr) (w : CommandWord) : Except Reject Instr :=
  if indexField w ≠ 0 then .error .indexNotZero
  else if dataHighField w ≠ 0 then .error .dataHighNotZero
  else .ok (mk (byteField w))

/-- Format W: a 16-bit word, all of whose bits are kept (R51). -/
def decodeW (mk : Word → Instr) (w : CommandWord) : Except Reject Instr :=
  if indexField w ≠ 0 then .error .indexNotZero
  else .ok (mk (dataField w))

/-- The opcode map (R49): `op` selects the command and so the format. -/
def decode (w : CommandWord) : Except Reject Instr :=
  match (opField w).toNat with
  | 0x0 => decodeX .getv w
  | 0x1 => decodeXB .setv w
  | 0x2 => decodeN .getvf w
  | 0x3 => decodeB .setvf w
  | 0x4 => decodeN .geti w
  | 0x5 => decodeW .seti w
  | 0x6 => decodeN .getpc w
  | 0x7 => decodeW .setpc w
  | 0x8 => decodeN .incpc w
  | 0x9 => decodeW .push w
  | 0xA => decodeN .pop w
  | _ => .error .reservedOpcode

/-! ## Encoding -/

/-- The command word with the fields `op`, `x` and `d` (R46: `oooo xxxx dddddddd dddddddd`). -/
def layout (op : Opcode) (x : RegIndex) (d : Word) : CommandWord := op ++ x ++ d

/-- A byte operand as the data field: `d[15:8]` is zero (R48, R52). -/
def byteData (b : Byte) : Word := 0x00#8 ++ b

/-- The one command word of a command (R48, R49). -/
def encode : Instr → CommandWord
  | .getv x => layout 0x0#4 x 0#16
  | .setv x b => layout 0x1#4 x (byteData b)
  | .getvf => layout 0x2#4 0#4 0#16
  | .setvf b => layout 0x3#4 0#4 (byteData b)
  | .geti => layout 0x4#4 0#4 0#16
  | .seti w => layout 0x5#4 0#4 w
  | .getpc => layout 0x6#4 0#4 0#16
  | .setpc w => layout 0x7#4 0#4 w
  | .incpc => layout 0x8#4 0#4 0#16
  | .push w => layout 0x9#4 0#4 w
  | .pop => layout 0xA#4 0#4 0#16

/-! ## A command word as bytes: most significant byte first (20_memory.md R34, D11)

No rule of the block depends on this order: the command port takes the 24 bits at once. -/

/-- Byte 0 is bits 23 to 16. -/
def serialise (w : CommandWord) : List Byte :=
  [w.extractLsb' 16 8, w.extractLsb' 8 8, w.extractLsb' 0 8]

/-- The command word at the front of a list of bytes, and what follows it. -/
def deserialise : List Byte → Option (CommandWord × List Byte)
  | b0 :: b1 :: b2 :: rest => some (b0 ++ b1 ++ b2, rest)
  | _ => none

/-- The command at the front of a list of bytes, and what follows it. -/
def decodeBytes (bs : List Byte) : Except Reject (Instr × List Byte) :=
  match deserialise bs with
  | none => .error .truncated
  | some (w, rest) =>
    match decode w with
    | .ok i => .ok (i, rest)
    | .error r => .error r

/-- The three bytes of a command. -/
def encodeBytes (i : Instr) : List Byte := serialise (encode i)

/-! ## The host's numbering of a table row -/

/-- The command word whose low `nbits` bits are those of `w`, as spec/opcode_table.json numbers them (bit 0
the least significant), and whose other bits are 0. Every row of the table has 24 bits. -/
def tableWord (nbits w : Nat) : CommandWord := BitVec.ofNat 24 (w % 2 ^ nbits)

/-- The command the decoder reads from `tableWord nbits w`; none where it refuses, and none for a number
that no command word holds. -/
def decodeTableWord (nbits w : Nat) : Option Instr :=
  if w % 2 ^ nbits < 2 ^ 24 then (decode (tableWord nbits w)).toOption else none

end Sys2Proof
end

