-- ==== Sys2Proof/Machine/State.lean ====
section
/-! DEFINITION. The state of the machine as plain data, its state after reset, and the reasons a step can
stop (10_state.md, 30_encoding.md R45, 70_reset_and_hazards.md R125). -/

namespace Sys2Proof.Machine

/-- The diagnostic of a step (60_exceptions.md R107). -/
inductive Diag where
  /-- `NONE`: the step emits nothing. -/
  | none
  /-- `STACK_UNDERFLOW`: POP on an empty stack. -/
  | stackUnderflow
  /-- `STACK_OVERFLOW_SOFT`: PUSH onto a stack longer than the nominal depth. -/
  | stackOverflowSoft
  /-- `ILLEGAL_COMMAND`: a reserved command word. -/
  | illegalCommand
deriving DecidableEq, Repr

/-- What the owner presents at one clock edge: the input ports `rst`, `cmd_valid` and `cmd`
(30_encoding.md R45). -/
structure PortInput where
  rst : Bool
  cmdValid : Bool
  cmd : CommandWord
deriving DecidableEq, Repr

/-- What the block answers in one step: the output ports `rsp_valid`, `rsp_data` and `diag`
(30_encoding.md R45, R56). -/
structure Response where
  valid : Bool
  data : Word
  diag : Diag
deriving DecidableEq, Repr

/-- The block's five fields (10_state.md section 1; VF is `v[15]`), and three fields of the model's own:
the inputs still to come, the response of the step just made, and the capacity of the build. -/
structure State where
  /-- `V[0]` to `V[15]` (R10). -/
  v : Vector Byte 16
  /-- The address register `I` (R18). -/
  i : Word
  /-- The program counter `PC`, which sequences nothing (R19, 00_scope.md R6). -/
  pc : Word
  /-- The call stack, oldest entry first (R22). -/
  stack : List Word
  /-- The inputs the owner is yet to present, in order (00_scope.md R6; notes/assumptions/2.md). -/
  inputs : List PortInput
  /-- The output ports of the step that led here. No step reads it (60_exceptions.md R108;
  notes/assumptions/1.md). -/
  response : Response
  /-- `STACK_CAPACITY`, `none` for unbounded. No step changes it (43_call_stack.md R94;
  notes/assumptions/4.md). -/
  stackCapacity : Option Nat
deriving DecidableEq, Repr

/-- No step of the block faults: "No operation in this component is fatal or aborts VM execution"
(60_exceptions.md R105). There is no constructor, and so none to call safe or unsafe. -/
inductive Fault where
deriving DecidableEq, Repr

/-- Why a step has no meaning. -/
inductive Refusal where
  /-- An instruction without a meaning. Raised by an arm of `exec` that is not yet written; none is. Safe:
  nothing is claimed of such a step. -/
  | notModelled (mnemonic : String)
  /-- Raised by PUSH in a build of finite `STACK_CAPACITY` whose stack is full: "a model must give that
  step no meaning (refuse it)" (43_call_stack.md R94). Safe: nothing is claimed of such a step. The reference
  build is unbounded and never raises it. -/
  | stackAtCapacity
deriving DecidableEq, Repr

/-- The machine right after reset (10_state.md R26, 70_reset_and_hazards.md R125): a reset step leaves these
registers and answers nothing. Nothing is presented yet, and the build is the unbounded reference model
(R23). -/
def State.reset : State where
  v := Vector.replicate 16 0x00#8
  i := 0x0000#16
  pc := Config.resetPc
  stack := []
  inputs := []
  response := ⟨false, 0x0000#16, .none⟩
  stackCapacity := none

end Sys2Proof.Machine
end

