-- ==== Sys2Proof/Machine/Operands.lean ====
section
/-! DEFINITION. The operand and result forms: the five formats' operands reach the meanings at their own
width from Decode.lean; here stands what is done to a value on its way (30_encoding.md R50, R56,
42_program_counter.md R85). -/

namespace Sys2Proof.Machine

/-- `zext_16(b)`: an 8-bit value as the 16-bit `rsp_data` (R56). -/
def zext16 (b : Byte) : Word := b.setWidth 16

/-- `(a + PC_STEP) mod 2^16`, the block's only addition (42_program_counter.md R82, R85). -/
def nextInstructionAddress (a : Word) : Word := a + Config.pcStep

/-- The 2-bit code of a diagnostic on the port `diag` (60_exceptions.md R107). -/
def Diag.code : Diag → BitVec 2
  | .none => 0#2
  | .stackUnderflow => 1#2
  | .stackOverflowSoft => 2#2
  | .illegalCommand => 3#2

end Sys2Proof.Machine
end

