-- ==== Sys2Proof/Machine/Ops.lean ====
section
/-! DEFINITION. The named operations over the registers, the stack and the ports. The block takes no
exception and has no memory (60_exceptions.md R105, R112; 20_memory.md R30), so neither has an operation
here; the nearest thing to an exception, a reserved word, is `State.illegalStep`. -/

namespace Sys2Proof.Machine

/-! ## General registers -/

/-- `V[x]` (10_state.md R10, R11: none is hardwired). -/
def State.readV (s : State) (x : RegIndex) : Byte := s.v[x.toNat]'x.isLt

/-- `V[x] <- b`; every other register keeps its value (40_register_access.md R66). -/
def State.writeV (s : State) (x : RegIndex) (b : Byte) : State :=
  { s with v := s.v.set x.toNat b x.isLt }

/-! ## Address register and program counter -/

/-- `I <- w`, all 16 bits (41_address_register.md R76). -/
def State.writeI (s : State) (w : Word) : State := { s with i := w }

/-- `PC <- w`, all 16 bits, no alignment or range check (42_program_counter.md R81, 20_memory.md R35). -/
def State.writePc (s : State) (w : Word) : State := { s with pc := w }

/-! ## Call stack -/

/-- The stack of a finite build is full (43_call_stack.md R94). Never so in an unbounded build. -/
def State.stackFull (s : State) : Bool :=
  match s.stackCapacity with
  | none => false
  | some c => c ≤ s.stack.length

/-- `stack <- stack ++ [w]` (43_call_stack.md R90). -/
def State.appendEntry (s : State) (w : Word) : State := { s with stack := s.stack ++ [w] }

/-- `last(stack)`, none when the stack is empty (R91). -/
def State.lastEntry (s : State) : Option Word := s.stack.getLast?

/-- `stack <- init(stack)`; the entry leaves no trace (R91, 10_state.md R24). -/
def State.removeLastEntry (s : State) : State := { s with stack := s.stack.dropLast }

/-- The diagnostic of a PUSH, from the length before it (R90, 90_conflicts.md C1: strictly greater). -/
def State.pushDiag (s : State) : Diag :=
  if s.stack.length > Config.stackNominalDepth then .stackOverflowSoft else .none

/-! ## Responses (30_encoding.md R56) -/

/-- The step returns `w`: `rsp_valid = 1`. -/
def Response.value (w : Word) (d : Diag) : Response := ⟨true, w, d⟩

/-- The step returns nothing: `rsp_valid = 0` and `rsp_data = 0x0000`. -/
def Response.silent (d : Diag) : Response := ⟨false, 0x0000#16, d⟩

/-- The output ports of this step; those of the step before are gone (60_exceptions.md R108). -/
def State.respond (s : State) (r : Response) : State := { s with response := r }

/-- A command that returns `w` ends so. -/
def State.returning (s : State) (w : Word) (d : Diag) : Host.Outcome State Fault Refusal :=
  .next (s.respond (Response.value w d))

/-- A command that returns nothing ends so. -/
def State.completing (s : State) (d : Diag) : Host.Outcome State Fault Refusal :=
  .next (s.respond (Response.silent d))

/-! ## Inputs (30_encoding.md R45, 00_scope.md R6) -/

/-- `cmd_valid = 0`: no command at this edge (30_encoding.md R58). -/
def PortInput.idle : PortInput := ⟨false, false, 0#24⟩

/-- A command word at this edge. -/
def PortInput.command (w : CommandWord) : PortInput := ⟨false, true, w⟩

/-- `rst = 1` at this edge (70_reset_and_hazards.md R125). -/
def PortInput.reset : PortInput := ⟨true, false, 0#24⟩

/-- The input of the next step: the first the owner is yet to present. When it presents no further input,
`cmd_valid` is 0 (00_scope.md R6: the block has no halt; notes/assumptions/2.md). -/
def State.presented (s : State) : PortInput := s.inputs.headD PortInput.idle

/-- The input of this step is taken: `cmd_ready` is constant 1 (70_reset_and_hazards.md R133). -/
def State.consumed (s : State) : State := { s with inputs := s.inputs.tail }

/-- The owner presents `p` at the next edge, before the inputs already waiting. -/
def State.present (s : State) (p : PortInput) : State := { s with inputs := p :: s.inputs }

/-! ## The steps that execute no command -/

/-- Reset: the block is as freshly constructed and nothing survives (70_reset_and_hazards.md R125, R127).
The inputs to come and the build are not the block's to reset. -/
def State.resetStep (s : State) : State :=
  { State.reset with inputs := s.inputs, stackCapacity := s.stackCapacity }

/-- Idle: the state is held, `cmd` is ignored (30_encoding.md R58). -/
def State.idleStep (s : State) : State := s.respond (Response.silent .none)

/-- A reserved word is not executed: the state is held and the step says so (30_encoding.md R54;
notes/assumptions/3.md). -/
def State.illegalStep (s : State) : State := s.respond (Response.silent .illegalCommand)

end Sys2Proof.Machine
end

