-- ==== Sys2Proof/Machine/AddressRegister.lean ====
section
/-! DEFINITION. GETI, SETI (41_address_register.md). -/

namespace Sys2Proof.Machine

/-- R75: `rsp <- I`, unmasked. -/
def execGeti (s : State) : Host.Outcome State Fault Refusal :=
  s.returning s.i .none

/-- R76: `I <- w`, unmasked. -/
def execSeti (w : Word) (s : State) : Host.Outcome State Fault Refusal :=
  (s.writeI w).completing .none

end Sys2Proof.Machine
end

