-- ==== Sys2Proof/Machine/CallStack.lean ====
section
/-! DEFINITION. PUSH, POP and the stack arbiter (43_call_stack.md). -/

namespace Sys2Proof.Machine

/-- R90: `stack <- stack ++ [w]`, always, with STACK_OVERFLOW_SOFT when the length before is over 16. A full
stack of a finite build gives the step no meaning (R94). -/
def execPush (w : Word) (s : State) : Host.Outcome State Fault Refusal :=
  if s.stackFull then .refused .stackAtCapacity
  else (s.appendEntry w).completing s.pushDiag

/-- R91: the last entry is removed and returned; on an empty stack 0x0000 is returned with
STACK_UNDERFLOW and the stack stays empty (92_eei_decisions.md D16). -/
def execPop (s : State) : Host.Outcome State Fault Refusal :=
  match s.lastEntry with
  | none => s.returning Config.underflowValue .stackUnderflow
  | some w => s.removeLastEntry.returning w .none

end Sys2Proof.Machine
end

