-- ==== Sys2Proof/Machine/ProgramCounter.lean ====
section
/-! DEFINITION. GETPC, SETPC, INCPC (42_program_counter.md). -/

namespace Sys2Proof.Machine

/-- R80: `rsp <- PC`. -/
def execGetpc (s : State) : Host.Outcome State Fault Refusal :=
  s.returning s.pc .none

/-- R81: `PC <- w`, verbatim; no return address is saved. -/
def execSetpc (w : Word) (s : State) : Host.Outcome State Fault Refusal :=
  (s.writePc w).completing .none

/-- R82: `PC <- (PC + 2) mod 2^16`; the carry out goes nowhere (92_eei_decisions.md D7). -/
def execIncpc (s : State) : Host.Outcome State Fault Refusal :=
  (s.writePc (nextInstructionAddress s.pc)).completing .none

end Sys2Proof.Machine
end

