-- ==== Sys2Proof/Machine/Flags.lean ====
section
/-! DEFINITION. The flag register VF, the block's only flag: another name of `V[15]`, written only by a
command that names it (10_state.md R14, R15, R16). The block computes no flag value; the caller does. -/

namespace Sys2Proof.Machine

/-- `VF`, which is `V[15]` (R14). -/
def State.readVF (s : State) : Byte := s.readV Config.flagIndex

/-- `VF <- b`, the whole byte (R14, 40_register_access.md R68). -/
def State.writeVF (s : State) (b : Byte) : State := s.writeV Config.flagIndex b

end Sys2Proof.Machine
end

