-- ==== Sys2Proof/Machine/RegisterAccess.lean ====
section
/-! DEFINITION. GETV, SETV, GETVF, SETVF (40_register_access.md). -/

namespace Sys2Proof.Machine

/-- R65: `rsp <- zext_16(V[x])`. -/
def execGetv (x : RegIndex) (s : State) : Host.Outcome State Fault Refusal :=
  s.returning (zext16 (s.readV x)) .none

/-- R66: `V[x] <- b`, for index 15 as for any other (10_state.md R17, 90_conflicts.md C5). -/
def execSetv (x : RegIndex) (b : Byte) (s : State) : Host.Outcome State Fault Refusal :=
  (s.writeV x b).completing .none

/-- R67: `rsp <- zext_16(V[15])`. -/
def execGetvf (s : State) : Host.Outcome State Fault Refusal :=
  s.returning (zext16 s.readVF) .none

/-- R68: `V[15] <- b`. -/
def execSetvf (b : Byte) (s : State) : Host.Outcome State Fault Refusal :=
  (s.writeVF b).completing .none

end Sys2Proof.Machine
end

