-- ==== Sys2Proof/Machine/Dispatch.lean ====
section
/-! DEFINITION. The one map from commands to meanings. -/

namespace Sys2Proof.Machine

def exec (i : Instr) (s : State) : Host.Outcome State Fault Refusal :=
  match i with
  | .getv x => Sys2Proof.Machine.execGetv x s
  | .setv x b => Sys2Proof.Machine.execSetv x b s
  | .getvf => Sys2Proof.Machine.execGetvf s
  | .setvf b => Sys2Proof.Machine.execSetvf b s
  | .geti => Sys2Proof.Machine.execGeti s
  | .seti w => Sys2Proof.Machine.execSeti w s
  | .getpc => Sys2Proof.Machine.execGetpc s
  | .setpc w => Sys2Proof.Machine.execSetpc w s
  | .incpc => Sys2Proof.Machine.execIncpc s
  | .push w => Sys2Proof.Machine.execPush w s
  | .pop => Sys2Proof.Machine.execPop s

end Sys2Proof.Machine
end

