-- ==== Sys2Proof/Machine/Clock.lean ====
section
/-! DEFINITION. What one clock edge does with the input presented at it (30_encoding.md R45). -/

namespace Sys2Proof.Machine

/-- The command word `w` is executed, or it is reserved and reported (30_encoding.md R53, R54). -/
def executeWord (w : CommandWord) (s : State) : Host.Outcome State Fault Refusal :=
  match decode w with
  | .ok i => exec i s
  | .error _ => .next s.illegalStep

/-- Reset overrides `cmd_valid` (60_exceptions.md R111, 70_reset_and_hazards.md R125); without a command the
step is idle (30_encoding.md R58). -/
def clockEdge (p : PortInput) (s : State) : Host.Outcome State Fault Refusal :=
  if p.rst then .next s.resetStep
  else if p.cmdValid then executeWord p.cmd s
  else .next s.idleStep

end Sys2Proof.Machine
end

