-- ==== Sys2Proof/Machine/Step.lean ====
section
/-! DEFINITION. One step of the machine: the next input is taken from the owner and clocked in
(00_scope.md R5, R6). PC selects nothing: the block fetches no instruction (20_memory.md R42). -/

namespace Sys2Proof.Machine

/-- One rising edge of `clk`. -/
def step (s : State) : Host.Outcome State Fault Refusal :=
  clockEdge s.presented s.consumed

/-- The owner presents the word numbered as spec/opcode_table.json numbers it at the next edge. The command
port is where the block gets its commands (00_scope.md R6; notes/assumptions/6.md). -/
def State.withFetchWord (s : State) (nbits w : Nat) : State :=
  s.present (PortInput.command (tableWord nbits w))

end Sys2Proof.Machine
end

