-- ==== Sys2Proof/Machine/Assembler.lean ====
section
/-! DEFINITION. The assembler syntax of 30_encoding.md R59: a line of text to a command, and a command, an
input and a response to a listing. Text is a list of characters. What R59 leaves open (spaces, the case of
hexadecimal digits, the spelling of listed numbers, where a listing shows the diagnostic of a step without a
value) is notes/assumptions/7.md. The machine does not depend on this file. -/

namespace Sys2Proof.Machine

/-! ## Numbers and operands -/

/-- The sixteen hexadecimal digits by value, as the spec's listings write them. The first ten are the decimal
digits. -/
def digitsByValue : List Char := "0123456789ABCDEF".toList

/-- A digit's value is its place among the digits, in either letter case. -/
def digitValue (c : Char) : Option Nat :=
  (digitsByValue.idxOf? c).or ("0123456789abcdef".toList.idxOf? c)

/-- The number that digits write, each of them a digit of the base, the first the most significant. -/
def readDigits (base : Nat) (cs : List Char) : Option Nat := do
  let ds ← cs.mapM digitValue
  if ds.all (· < base) then some (ds.foldl (fun n d => base * n + d) 0) else none

/-- "Numbers are decimal, or hexadecimal with the prefix `0x`"; at least one digit. -/
def readNumber : List Char → Option Nat
  | [] => none
  | ['0', 'x'] => none
  | '0' :: 'x' :: cs => readDigits 16 cs
  | cs => readDigits 10 cs

/-- A number that fits in the width of its field: "An operand outside its range does not assemble". -/
def numberOperand (width : Nat) (cs : List Char) : Option (BitVec width) :=
  (readNumber cs).bind fun n => if n < 2 ^ width then some (BitVec.ofNat width n) else none

/-- `b` is a number 0 to 255. -/
def byteOperand : List Char → Option Byte := numberOperand 8

/-- `w` is a number 0 to 65535. -/
def wordOperand : List Char → Option Word := numberOperand 16

/-- `Vx` is `V` followed by one hexadecimal digit. -/
def registerOperand : List Char → Option RegIndex
  | ['V', c] => (digitValue c).map (BitVec.ofNat 4)
  | _ => none

/-! ## Lines -/

/-- The text without the spaces at its two ends. -/
def trimSpaces (cs : List Char) : List Char :=
  ((cs.dropWhile (· = ' ')).reverse.dropWhile (· = ' ')).reverse

/-- The pieces of the text between commas; one piece when there is no comma. -/
def splitAtCommas : List Char → List (List Char)
  | [] => [[]]
  | c :: cs =>
    match splitAtCommas cs with
    | [] => [[c]]
    | piece :: pieces => if c = ',' then [] :: piece :: pieces else (c :: piece) :: pieces

/-- The operands of a line: what follows the mnemonic and a space, separated by commas. -/
def operandsOf (line : List Char) : List (List Char) :=
  match trimSpaces (line.dropWhile (· ≠ ' ')) with
  | [] => []
  | cs => (splitAtCommas cs).map trimSpaces

/-- The command a mnemonic and its operands assemble to: the table of R59. -/
def assembleParts (mnemonic : List Char) (operands : List (List Char)) : Option Instr :=
  match String.ofList mnemonic, operands with
  | "GETV", [x] => (registerOperand x).map .getv
  | "SETV", [x, b] => (registerOperand x).bind fun x => (byteOperand b).map (.setv x)
  | "GETVF", [] => some .getvf
  | "SETVF", [b] => (byteOperand b).map .setvf
  | "GETI", [] => some .geti
  | "SETI", [w] => (wordOperand w).map .seti
  | "GETPC", [] => some .getpc
  | "SETPC", [w] => (wordOperand w).map .setpc
  | "INCPC", [] => some .incpc
  | "PUSH", [w] => (wordOperand w).map .push
  | "POP", [] => some .pop
  | _, _ => none

/-- A line of text assembles to a command, or it does not assemble. -/
def assembleLine (line : List Char) : Option Instr :=
  let line := trimSpaces line
  assembleParts (line.takeWhile (· ≠ ' ')) (operandsOf line)

/-! ## Listings -/

/-- One hexadecimal digit, upper case. -/
def hexDigit (n : BitVec 4) : Char := digitsByValue.getD n.toNat '0'

/-- A byte as `0x` and two digits. -/
def showByte (b : Byte) : List Char :=
  ['0', 'x', hexDigit (b.extractLsb' 4 4), hexDigit (b.extractLsb' 0 4)]

/-- A 16-bit value as `0x` and four digits. -/
def showWord (w : Word) : List Char :=
  ['0', 'x', hexDigit (w.extractLsb' 12 4), hexDigit (w.extractLsb' 8 4),
    hexDigit (w.extractLsb' 4 4), hexDigit (w.extractLsb' 0 4)]

/-- A register as `V` and one digit. -/
def showRegister (x : RegIndex) : List Char := ['V', hexDigit x]

/-- A command in the syntax of R59. -/
def showInstr : Instr → List Char
  | .getv x => "GETV ".toList ++ showRegister x
  | .setv x b => "SETV ".toList ++ showRegister x ++ ", ".toList ++ showByte b
  | .getvf => "GETVF".toList
  | .setvf b => "SETVF ".toList ++ showByte b
  | .geti => "GETI".toList
  | .seti w => "SETI ".toList ++ showWord w
  | .getpc => "GETPC".toList
  | .setpc w => "SETPC ".toList ++ showWord w
  | .incpc => "INCPC".toList
  | .push w => "PUSH ".toList ++ showWord w
  | .pop => "POP".toList

/-- What a listing shows of a diagnostic: its name in brackets. That NONE is not shown is the model's DESIGN
CHOICE (notes/assumptions/7.md). -/
def showDiag : Diag → List Char
  | .none => []
  | .stackUnderflow => " [STACK_UNDERFLOW]".toList
  | .stackOverflowSoft => " [STACK_OVERFLOW_SOFT]".toList
  | .illegalCommand => " [ILLEGAL_COMMAND]".toList

/-- "a returned value is shown after `->`, and a diagnostic after it in brackets". R59 places a diagnostic only
after a returned value; that the diagnostic of a step that returns none (a PUSH that overflows, a reserved word)
stands right after the command is the model's DESIGN CHOICE (notes/assumptions/7.md). -/
def showResponse (r : Response) : List Char :=
  (if r.valid then " -> ".toList ++ showWord r.data else []) ++ showDiag r.diag

/-- An input in a listing: a command, a reserved word as its six hexadecimal digits (R46), or the inputs
that have no mnemonic, `(idle)` and `(reset)` (R60). -/
def showInput (p : PortInput) : List Char :=
  if p.rst then "(reset)".toList
  else if p.cmdValid then
    match decode p.cmd with
    | .ok i => showInstr i
    | .error _ =>
      showByte (p.cmd.extractLsb' 16 8) ++ (showWord (dataField p.cmd)).drop 2
  else "(idle)".toList

/-- One line of a listing: what was presented and what the block answered. -/
def showStep (p : PortInput) (r : Response) : List Char := showInput p ++ showResponse r

end Sys2Proof.Machine
end

