-- ==== Sys2Proof/Safety.lean ====
section
/-! DEFINITION. The terms claims are stated in: what a step or a run leaves alone, what it answers, the
invariants, and the conventions the block's caller keeps (70_reset_and_hazards.md R131). Nothing here takes
part in a step: a program that underflows its stack goes on running (93_implementation_defined.md U6). -/

namespace Sys2Proof

open Machine

/-! ## What is left alone -/

/-- The block's own five fields are equal (10_state.md section 1). -/
abbrev Safety.SameBlock (s t : State) : Prop :=
  t.v = s.v ∧ t.i = s.i ∧ t.pc = s.pc ∧ t.stack = s.stack

/-- What is outside the block is equal: the inputs to come and the capacity of the build. -/
abbrev Safety.SameOutside (s t : State) : Prop :=
  t.inputs = s.inputs ∧ t.stackCapacity = s.stackCapacity

/-- There is room for one more entry: always so in the unbounded reference model (43_call_stack.md R94). -/
abbrev Safety.HasRoom (s : State) : Prop :=
  ∀ c, s.stackCapacity = some c → s.stack.length < c

/-! ## What is executed and answered -/

/-- The command an input makes the block execute: none for a reset step, an idle step or a reserved word
(30_encoding.md R53, R58, 70_reset_and_hazards.md R125). -/
def Safety.executes (p : PortInput) : Option Instr :=
  if p.rst then none else if p.cmdValid then (decode p.cmd).toOption else none

/-- The input is a reserved word presented for execution (30_encoding.md R54). -/
def Safety.presentsReserved (p : PortInput) : Bool :=
  !p.rst && p.cmdValid && !wellFormedWord p.cmd

/-- The host's run of the machine, `n` steps, at the machine's own types. -/
def Safety.run (n : Nat) (s : State) : Host.Outcome State Fault Refusal := core.run n s

/-- The responses of the first `n` steps, in order, up to a step that has no meaning. A run's responses are
no part of the block's state (60_exceptions.md R108). -/
def Safety.responses : Nat → State → List Response
  | 0, _ => []
  | n + 1, s =>
    match step s with
    | .next t => t.response :: Safety.responses n t
    | .fault _ => []
    | .refused _ => []

/-- Commands executed one after the other, each on the state the one before it left (20_memory.md R39). -/
def Safety.execAll : List Instr → State → Host.Outcome State Fault Refusal
  | [], s => .next s
  | i :: rest, s =>
    match exec i s with
    | .next t => Safety.execAll rest t
    | .fault r => .fault r
    | .refused r => .refused r

/-- The input that presents a command by its word. -/
def Safety.inputOf (i : Instr) : PortInput := PortInput.command (encode i)

/-! ## Invariants -/

/-- The stack is no longer than the build's capacity (10_state.md section 1: length 0 to
`STACK_CAPACITY`). -/
abbrev Safety.StackFits (s : State) : Prop :=
  ∀ c ∈ s.stackCapacity, s.stack.length ≤ c

/-- The 16-bit value is odd. -/
def Safety.isOdd (w : Word) : Bool := w.getLsbD 0

/-- The input is a SETPC of an odd value. -/
def Safety.loadsOddPc (p : PortInput) : Bool :=
  match Safety.executes p with
  | some (.setpc w) => Safety.isOdd w
  | _ => false

/-- PC is even and the owner keeps its obligation to load only even values (10_state.md R21). -/
abbrev Safety.EvenPc (s : State) : Prop :=
  Safety.isOdd s.pc = false ∧ ∀ p ∈ s.inputs, Safety.loadsOddPc p = false

/-! ## The caller's conventions, which the block does not check (70_reset_and_hazards.md R131) -/

/-- The value fits in the architecture's 12 address bits. -/
def Safety.masked (w : Word) : Bool := w.toNat < 2 ^ Config.addrMeaningful

/-- The command keeps the conventions of R131 that one command can break: 12-bit I and jump targets, even
jump targets, V[15] reached as VF only, at most 16 nested calls, no return without a call. -/
def Safety.conventional (i : Instr) (s : State) : Bool :=
  match i with
  | .getv x => x != Config.flagIndex
  | .setv x _ => x != Config.flagIndex
  | .getvf => true
  | .setvf _ => true
  | .geti => true
  | .seti w => Safety.masked w
  | .getpc => true
  | .setpc w => Safety.masked w && !Safety.isOdd w
  | .incpc => true
  | .push _ => decide (s.stack.length < Config.stackNominalDepth)
  | .pop => !s.stack.isEmpty

/-- What a caller that keeps the conventions may rely on. -/
abbrev Safety.Conventional (s : State) : Prop :=
  Safety.isOdd s.pc = false ∧ Safety.masked s.i = true ∧ s.stack.length ≤ Config.stackNominalDepth

end Sys2Proof
end

