-- ==== Sys2Proof/Certificates/Slice0/Obligations.lean ====
section
/-! DEFINITION. The statements for the provers. Each docstring names the rule of spec/ it formalises. Numbers
of the spec are written out here, not through Config, so that a statement says what the spec prints. -/

open Sys2Proof Sys2Proof.Machine

/-! ## Reset, idle steps, reserved words -/

/-- 10_state.md R26. -/
def Obligations.ResetHoldsTheStatedValues : Prop :=
  State.reset.pc = 0x0200#16 ∧ (∀ x : RegIndex, State.reset.readV x = 0x00#8) ∧
    State.reset.readVF = 0x00#8 ∧ State.reset.i = 0x0000#16 ∧ State.reset.stack = [] ∧
    State.reset.stack.length = 0

/-- 70_reset_and_hazards.md R125: whatever `cmd_valid` and `cmd` hold. The inputs to come and the capacity of
the build are the model's own fields (notes/assumptions/2.md, 4.md) and are not reset. -/
def Obligations.ResetStepOverridesTheCommand : Prop :=
  ∀ (s : State) (cmdValid : Bool) (cmd : CommandWord) (rest : List PortInput),
    step { s with inputs := ⟨true, cmdValid, cmd⟩ :: rest } =
      .next
        { v := Vector.replicate 16 0x00#8, i := 0x0000#16, pc := 0x0200#16, stack := [],
          inputs := rest, response := ⟨false, 0x0000#16, .none⟩, stackCapacity := s.stackCapacity }

/-- 70_reset_and_hazards.md R127: "Nothing survives a reset". Two blocks of the same build that are given the
same inputs, a reset first, run and answer alike ever after, whatever they held. -/
def Obligations.NothingSurvivesAReset : Prop :=
  ∀ (s t : State) (p : PortInput) (rest : List PortInput) (n : Nat),
    p.rst = true → s.stackCapacity = t.stackCapacity →
      Safety.run (n + 1) { s with inputs := p :: rest } = Safety.run (n + 1) { t with inputs := p :: rest } ∧
      Safety.responses n { s with inputs := p :: rest } = Safety.responses n { t with inputs := p :: rest }

/-- 30_encoding.md R58: an idle step ignores `cmd` and holds the state, and any number of idle steps changes
no later result. -/
def Obligations.IdleStepsHoldTheState : Prop :=
  (∀ (s : State) (cmd : CommandWord) (rest : List PortInput),
    step { s with inputs := ⟨false, false, cmd⟩ :: rest } =
      .next { s with inputs := rest, response := ⟨false, 0x0000#16, .none⟩ }) ∧
  (∀ (s : State) (idles rest : List PortInput) (m : Nat),
    (∀ p ∈ idles, p.rst = false ∧ p.cmdValid = false) → 0 < m →
      Safety.run (idles.length + m) { s with inputs := idles ++ rest } =
        Safety.run m { s with inputs := rest } ∧
      (Safety.responses (idles.length + m) { s with inputs := idles ++ rest }).drop idles.length =
        Safety.responses m { s with inputs := rest })

/-- The model's choice (notes/assumptions/2.md, DESIGN CHOICE): when the owner presents no further input, a
step is an idle step. 00_scope.md R6 says only that the block has no halt. -/
def Obligations.StepWithoutInputIsIdle : Prop :=
  ∀ s : State, s.inputs = [] →
    step s = .next { s with response := ⟨false, 0x0000#16, .none⟩ }

/-- 30_encoding.md R54, the hardware's part of it (notes/assumptions/3.md, DESIGN CHOICE: the decoder refuses
the word, and the step is the hardware's). -/
def Obligations.ReservedWordHoldsTheState : Prop :=
  ∀ (s : State) (w : CommandWord) (rest : List PortInput), wellFormedWord w = false →
    (∃ r, decode w = .error r) ∧
    step { s with inputs := ⟨false, true, w⟩ :: rest } =
      .next { s with inputs := rest, response := ⟨false, 0x0000#16, .illegalCommand⟩ }

/-! ## Encoding -/

/-- 30_encoding.md R53: a word is reserved when it matches no row, and these are exactly the sets. -/
def Obligations.ReservedWordsAreTheListedSets : Prop :=
  ∀ w : CommandWord,
    ((∃ r, decode w = .error r) ↔ wellFormedWord w = false) ∧
    ((∃ r, decode w = .error r) ↔
      0xB#4 ≤ w.extractLsb' 20 4 ∨
      (w.extractLsb' 20 4 = 0x0#4 ∧ w.extractLsb' 0 16 ≠ 0#16) ∨
      (w.extractLsb' 20 4 = 0x1#4 ∧ w.extractLsb' 8 8 ≠ 0#8) ∨
      (w.extractLsb' 20 4 = 0x3#4 ∧ (w.extractLsb' 16 4 ≠ 0#4 ∨ w.extractLsb' 8 8 ≠ 0#8)) ∨
      (w.extractLsb' 20 4 ∈ [0x5#4, 0x7#4, 0x9#4] ∧ w.extractLsb' 16 4 ≠ 0#4) ∨
      (w.extractLsb' 20 4 ∈ [0x2#4, 0x4#4, 0x6#4, 0x8#4, 0xA#4] ∧
        (w.extractLsb' 16 4 ≠ 0#4 ∨ w.extractLsb' 0 16 ≠ 0#16)))

/-- 30_encoding.md R49: a word encodes a row's command exactly when `(w AND mask) = match`; the rows are
disjoint; a word that matches none is reserved; and the rows say which commands return a value. -/
def Obligations.DecodingFollowsTheOpcodeMap : Prop :=
  (∀ w : CommandWord,
    ((∃ x, decode w = .ok (.getv x)) ↔ w &&& 0xF0FFFF#24 = 0x000000#24) ∧
    ((∃ x b, decode w = .ok (.setv x b)) ↔ w &&& 0xF0FF00#24 = 0x100000#24) ∧
    (decode w = .ok .getvf ↔ w &&& 0xFFFFFF#24 = 0x200000#24) ∧
    ((∃ b, decode w = .ok (.setvf b)) ↔ w &&& 0xFFFF00#24 = 0x300000#24) ∧
    (decode w = .ok .geti ↔ w &&& 0xFFFFFF#24 = 0x400000#24) ∧
    ((∃ d, decode w = .ok (.seti d)) ↔ w &&& 0xFF0000#24 = 0x500000#24) ∧
    (decode w = .ok .getpc ↔ w &&& 0xFFFFFF#24 = 0x600000#24) ∧
    ((∃ d, decode w = .ok (.setpc d)) ↔ w &&& 0xFF0000#24 = 0x700000#24) ∧
    (decode w = .ok .incpc ↔ w &&& 0xFFFFFF#24 = 0x800000#24) ∧
    ((∃ d, decode w = .ok (.push d)) ↔ w &&& 0xFF0000#24 = 0x900000#24) ∧
    (decode w = .ok .pop ↔ w &&& 0xFFFFFF#24 = 0xA00000#24)) ∧
  (∀ w : CommandWord, ∀ r₁ ∈ opcodeRows, ∀ r₂ ∈ opcodeRows,
    r₁.selects w = true → r₂.selects w = true → r₁ = r₂) ∧
  (∀ w : CommandWord, (∀ r ∈ opcodeRows, r.selects w = false) → ∃ r, decode w = .error r) ∧
  (∀ (i : Instr) (s t : State), exec i s = .next t →
    (t.response.valid = true ↔
      (∃ x, i = .getv x) ∨ i = .getvf ∨ i = .geti ∨ i = .getpc ∨ i = .pop))

/-- 30_encoding.md R50: each operand is one contiguous field of the word. -/
def Obligations.OperandsAreContiguousFields : Prop :=
  ∀ w : CommandWord,
    (∀ x, decode w = .ok (.getv x) → x = w.extractLsb' 16 4) ∧
    (∀ x b, decode w = .ok (.setv x b) → x = w.extractLsb' 16 4 ∧ b = w.extractLsb' 0 8) ∧
    (∀ b, decode w = .ok (.setvf b) → b = w.extractLsb' 0 8) ∧
    (∀ d, decode w = .ok (.seti d) → d = w.extractLsb' 0 16) ∧
    (∀ d, decode w = .ok (.setpc d) → d = w.extractLsb' 0 16) ∧
    (∀ d, decode w = .ok (.push d) → d = w.extractLsb' 0 16)

/-- 30_encoding.md R46 to R50 and 92_eei_decisions.md D3: "each command has exactly one word". -/
def Obligations.DecodeAndEncodeAgree : Prop :=
  (∀ i : Instr, decode (encode i) = .ok i) ∧
  (∀ (w : CommandWord) (i : Instr), decode w = .ok i → encode i = w)

/-- 20_memory.md R34: a serialised command word has its most significant byte first. -/
def Obligations.SerialisedCommandsReadBack : Prop :=
  ∀ (i : Instr) (rest : List Byte),
    decodeBytes (encodeBytes i ++ rest) = .ok (i, rest) ∧
    (encodeBytes i).length = 3 ∧
    (encodeBytes i)[0]? = some ((encode i).extractLsb' 16 8)

/-- 30_encoding.md section 9: words the spec prints. -/
def Obligations.PrintedWordsDecodeAsPrinted : Prop :=
  decode 0x000000#24 = .ok (.getv 0x0#4) ∧ decode 0x0A0000#24 = .ok (.getv 0xA#4) ∧
  decode 0x13002A#24 = .ok (.setv 0x3#4 0x2A#8) ∧ decode 0x3000FF#24 = .ok (.setvf 0xFF#8) ∧
  decode 0x50FFFF#24 = .ok (.seti 0xFFFF#16) ∧ decode 0x700300#24 = .ok (.setpc 0x0300#16) ∧
  decode 0x800000#24 = .ok .incpc ∧ decode 0x900202#24 = .ok (.push 0x0202#16) ∧
  decode 0xA00000#24 = .ok .pop ∧ decode 0xB00000#24 = .error .reservedOpcode ∧
  decode 0x130100#24 = .error .dataHighNotZero ∧ decode 0x210000#24 = .error .indexNotZero ∧
  decode 0xA00001#24 = .error .dataNotZero

/-! ## Steps and runs -/

/-- 30_encoding.md R45: one edge with `rst = 0` and `cmd_valid = 1` executes one command; the step takes the
input away and does nothing else. -/
def Obligations.StepRunsTheDecodedCommand : Prop :=
  ∀ (s : State) (w : CommandWord) (i : Instr) (rest : List PortInput), decode w = .ok i →
    step { s with inputs := ⟨false, true, w⟩ :: rest } = exec i { s with inputs := rest }

/-- 20_memory.md R39: commands take effect one at a time in the order presented, each on the state left by
those before it. -/
def Obligations.CommandsTakeEffectInOrder : Prop :=
  ∀ (is : List Instr) (s : State) (rest : List PortInput),
    Safety.run is.length { s with inputs := is.map Safety.inputOf ++ rest } =
      Safety.execAll is { s with inputs := rest }

/-- 60_exceptions.md R105 for the commands, and 00_scope.md R5 (a step is total) for the runs, in the unbounded
reference model. The second clause is the model's in two points: a reserved word's step is the hardware's of
30_encoding.md R54 (notes/assumptions/3.md, DESIGN CHOICE), and a step with no input left is the idle step of
R58 (notes/assumptions/2.md, DESIGN CHOICE). -/
def Obligations.EveryStepCompletes : Prop :=
  (∀ (i : Instr) (s : State), s.stackCapacity = none → ∃ t, exec i s = .next t) ∧
  (∀ (n : Nat) (s : State), s.stackCapacity = none →
    ∃ t, Safety.run n s = .next t ∧ t.stackCapacity = none)

/-- 60_exceptions.md R108: what the block answered before is not stored, and no later step or answer depends
on it. -/
def Obligations.PastResponsesNeverMatter : Prop :=
  ∀ (s : State) (r : Response) (n : Nat),
    Safety.run (n + 1) { s with response := r } = Safety.run (n + 1) s ∧
    Safety.responses n { s with response := r } = Safety.responses n s

/-- About the model's own fields. That the inputs stand in a list and each step takes the first is the model's
way (notes/assumptions/2.md, DESIGN CHOICE) of saying that a clock edge samples one input and never stalls
(30_encoding.md R45, 70_reset_and_hazards.md R133). That no step, a reset step included, changes the capacity is
notes/assumptions/4.md, DESIGN CHOICE. -/
def Obligations.EveryStepTakesOneInput : Prop :=
  ∀ s t : State, step s = .next t → t.inputs = s.inputs.tail ∧ t.stackCapacity = s.stackCapacity

/-! ## General registers and the flag register -/

/-- 40_register_access.md R65. -/
def Obligations.GetvReturnsTheRegister : Prop :=
  (∀ x : RegIndex, decode (0x0#4 ++ x ++ 0x0000#16) = .ok (.getv x)) ∧
  (∀ (s : State) (x : RegIndex),
    exec (.getv x) s =
      .next { s with response := ⟨true, (s.v[x.toNat]'x.isLt).setWidth 16, .none⟩ }) ∧
  (∀ s : State, exec (.getv 0xF#4) s = exec .getvf s) ∧
  (∀ x : RegIndex, exec (.getv x) State.reset =
    .next { State.reset with response := ⟨true, 0x0000#16, .none⟩ })

/-- 40_register_access.md R66. -/
def Obligations.SetvStoresTheByte : Prop :=
  (∀ (x : RegIndex) (b : Byte), decode (0x1#4 ++ x ++ 0x00#8 ++ b) = .ok (.setv x b)) ∧
  (∀ (s : State) (x : RegIndex) (b : Byte), ∃ t,
    exec (.setv x b) s = .next t ∧ t.v[x.toNat]'x.isLt = b ∧
    (∀ y : RegIndex, y ≠ x → t.v[y.toNat]'y.isLt = s.v[y.toNat]'y.isLt) ∧
    t.i = s.i ∧ t.pc = s.pc ∧ t.stack = s.stack ∧ Safety.SameOutside s t ∧
    t.response = ⟨false, 0x0000#16, .none⟩) ∧
  (∀ w : CommandWord, w.extractLsb' 20 4 = 0x1#4 → w.extractLsb' 8 8 ≠ 0#8 →
    ∃ r, decode w = .error r)

/-- 40_register_access.md R67. -/
def Obligations.GetvfReturnsTheFlagRegister : Prop :=
  decode 0x200000#24 = .ok .getvf ∧
  (∀ s : State,
    exec .getvf s = .next { s with response := ⟨true, (s.v[15]).setWidth 16, .none⟩ }) ∧
  (∀ s : State, exec .getvf s = exec (.getv 0xF#4) s)

/-- 40_register_access.md R68. -/
def Obligations.SetvfStoresTheByte : Prop :=
  (∀ b : Byte, decode (0x300#12 ++ 0x0#4 ++ b) = .ok (.setvf b)) ∧
  (∀ (s : State) (b : Byte), ∃ t,
    exec (.setvf b) s = .next t ∧ t.v[15] = b ∧
    (∀ y : RegIndex, y ≠ 0xF#4 → t.v[y.toNat]'y.isLt = s.v[y.toNat]'y.isLt) ∧
    t.i = s.i ∧ t.pc = s.pc ∧ t.stack = s.stack ∧ Safety.SameOutside s t ∧
    t.response = ⟨false, 0x0000#16, .none⟩) ∧
  (∀ (s : State) (b : Byte), exec (.setvf b) s = exec (.setv 0xF#4 b) s)

/-- 10_state.md R14: a write through either name is seen by a read through either name. -/
def Obligations.FlagRegisterIsRegisterFifteen : Prop :=
  ∀ (s : State) (b : Byte), ∀ wr ∈ [Instr.setvf b, Instr.setv 0xF#4 b], ∀ rd ∈ [Instr.getvf, Instr.getv 0xF#4],
    ∃ t, exec wr s = .next t ∧ exec rd t = .next { t with response := ⟨true, b.setWidth 16, .none⟩ }

/-- 10_state.md R16: VF changes only when a command names it. -/
def Obligations.NoCommandWritesVFAsASideEffect : Prop :=
  ∀ (i : Instr) (s t : State), exec i s = .next t →
    (∀ b, i ≠ .setvf b) → (∀ b, i ≠ .setv 0xF#4 b) → t.readVF = s.readVF

/-- 40_register_access.md R69, its five laws. -/
def Obligations.RegisterFamilyLaws : Prop :=
  (∀ (s : State) (x : RegIndex) (b : Byte), ∃ t u,
    exec (.setv x b) s = .next t ∧ exec (.getv x) t = .next u ∧ u.response.data = b.setWidth 16) ∧
  (∀ (s t : State) (x : RegIndex) (b : Byte), exec (.setv x b) s = .next t →
    (∀ y, y ≠ x → t.readV y = s.readV y) ∧ t.i = s.i ∧ t.pc = s.pc ∧ t.stack = s.stack) ∧
  (∀ (s : State) (x : RegIndex) (b c : Byte), ∃ t,
    Safety.execAll [.setv x b, .setv x c] s = .next t ∧ t.readV x = c) ∧
  (∀ (s : State) (b : Byte), exec (.setvf b) s = exec (.setv 0xF#4 b) s) ∧
  (∀ s : State, exec .getvf s = exec (.getv 0xF#4) s) ∧
  (∀ (s : State) (x y : RegIndex) (b c : Byte), x ≠ y →
    Safety.execAll [.setv x b, .setv y c] s = Safety.execAll [.setv y c, .setv x b] s) ∧
  (∀ (s : State) (x : RegIndex) (b c : Byte), b ≠ c →
    Safety.execAll [.setv x b, .setv x c] s ≠ Safety.execAll [.setv x c, .setv x b] s)

/-- 10_state.md section 2 ("Access") and R11: what every general register holds after a step. -/
def Obligations.GeneralRegistersAfterAStep : Prop :=
  ∀ (s t : State) (x : RegIndex), step s = .next t →
    (s.presented.rst = true → t.readV x = 0x00#8) ∧
    (∀ b, Safety.executes s.presented = some (.setv x b) → t.readV x = b) ∧
    (∀ b, Safety.executes s.presented = some (.setvf b) → x = 0xF#4 → t.readV x = b) ∧
    (s.presented.rst = false → (∀ b, Safety.executes s.presented ≠ some (.setv x b)) →
      (∀ b, Safety.executes s.presented = some (.setvf b) → x ≠ 0xF#4) → t.readV x = s.readV x)

/-! ## The address register -/

/-- 41_address_register.md R75. -/
def Obligations.GetiReturnsTheAddressRegister : Prop :=
  decode 0x400000#24 = .ok .geti ∧
  (∀ s : State, exec .geti s = .next { s with response := ⟨true, s.i, .none⟩ })

/-- 41_address_register.md R76. -/
def Obligations.SetiStoresTheWord : Prop :=
  (∀ w : Word, decode (0x50#8 ++ w) = .ok (.seti w)) ∧
  (∀ (s : State) (w : Word),
    exec (.seti w) s = .next { s with i := w, response := ⟨false, 0x0000#16, .none⟩ })

/-- 41_address_register.md R77. -/
def Obligations.AddressRegisterLaws : Prop :=
  (∀ (s : State) (w : Word), ∃ t u,
    exec (.seti w) s = .next t ∧ exec .geti t = .next u ∧ u.response.data = w) ∧
  (∀ (s : State) (w w2 : Word), ∃ t, Safety.execAll [.seti w, .seti w2] s = .next t ∧ t.i = w2) ∧
  (∀ (s : State) (w : Word), ∀ i ∈ [Instr.geti, Instr.seti w], ∃ t, exec i s = .next t ∧
    t.v = s.v ∧ t.pc = s.pc ∧ t.stack = s.stack ∧ t.response.diag = .none)

/-- 10_state.md R18 ("read only by GETI and written only by SETI"): what I holds after a step. -/
def Obligations.AddressRegisterAfterAStep : Prop :=
  ∀ s t : State, step s = .next t →
    (s.presented.rst = true → t.i = 0x0000#16) ∧
    (∀ w, Safety.executes s.presented = some (.seti w) → t.i = w) ∧
    (s.presented.rst = false → (∀ w, Safety.executes s.presented ≠ some (.seti w)) → t.i = s.i)

/-! ## The program counter -/

/-- 42_program_counter.md R80. -/
def Obligations.GetpcReturnsTheProgramCounter : Prop :=
  decode 0x600000#24 = .ok .getpc ∧
  (∀ s : State, exec .getpc s = .next { s with response := ⟨true, s.pc, .none⟩ })

/-- 42_program_counter.md R81. -/
def Obligations.SetpcLoadsTheWord : Prop :=
  (∀ w : Word, decode (0x70#8 ++ w) = .ok (.setpc w)) ∧
  (∀ (s : State) (w : Word),
    exec (.setpc w) s = .next { s with pc := w, response := ⟨false, 0x0000#16, .none⟩ })

/-- 42_program_counter.md R82: PC + 2 modulo 2^16, with nothing recorded of the carry. -/
def Obligations.IncpcAddsTwo : Prop :=
  decode 0x800000#24 = .ok .incpc ∧
  (∀ s : State, ∃ t, exec .incpc s = .next t ∧
    t.pc.toNat = (s.pc.toNat + 2) % 2 ^ 16 ∧
    t.v = s.v ∧ t.i = s.i ∧ t.stack = s.stack ∧ Safety.SameOutside s t ∧
    t.response = ⟨false, 0x0000#16, .none⟩) ∧
  (∀ s t : State, exec .incpc s = .next t → Safety.isOdd t.pc = Safety.isOdd s.pc)

/-- 10_state.md R20: the PC state machine. -/
def Obligations.PcStateMachine : Prop :=
  ∀ s t : State, step s = .next t →
    (s.presented.rst = true → t.pc = 0x0200#16) ∧
    (∀ a, Safety.executes s.presented = some (.setpc a) → t.pc = a) ∧
    (Safety.executes s.presented = some .incpc → t.pc.toNat = (s.pc.toNat + 2) % 2 ^ 16) ∧
    (s.presented.rst = false → (∀ a, Safety.executes s.presented ≠ some (.setpc a)) →
      Safety.executes s.presented ≠ some .incpc → t.pc = s.pc) ∧
    (∀ w, Safety.executes s.presented = some (.push w) → t.stack = s.stack ++ [w] ∧ t.pc = s.pc) ∧
    (Safety.executes s.presented = some .pop → t.response.valid = true ∧ t.pc = s.pc)

/-- 42_program_counter.md R83, its five laws. -/
def Obligations.ProgramCounterLaws : Prop :=
  (∀ (s : State) (w : Word), ∃ t u,
    exec (.setpc w) s = .next t ∧ exec .getpc t = .next u ∧ u.response.data = w) ∧
  (∀ (s : State) (n : Nat), ∃ t, Safety.execAll (List.replicate n .incpc) s = .next t ∧
    t.pc.toNat = (s.pc.toNat + 2 * n) % 2 ^ 16) ∧
  (∀ s : State, ∃ t, Safety.execAll (List.replicate 32768 .incpc) s = .next t ∧ t.pc = s.pc) ∧
  (∀ (s : State) (n : Nat) (w : Word), ∃ t,
    Safety.execAll (List.replicate n .incpc ++ [.setpc w]) s = .next t ∧ t.pc = w) ∧
  (∀ s t : State, step s = .next t → s.presented.rst = false →
    (∀ w, Safety.executes s.presented ≠ some (.setpc w)) →
    Safety.executes s.presented ≠ some .incpc → t.pc = s.pc) ∧
  (∀ (s : State) (w : Word), ∀ i ∈ [Instr.getpc, Instr.setpc w, Instr.incpc],
    ∃ t, exec i s = .next t ∧ t.v = s.v ∧ t.i = s.i ∧ t.stack = s.stack ∧ t.response.diag = .none)

/-- 10_state.md R21: PC stays even as long as every SETPC loads an even value (notes/assumptions/8.md). -/
def Obligations.EvenPcIsKept : Prop :=
  ∀ s t : State, Safety.EvenPc s → step s = .next t → Safety.EvenPc t

/-! ## The call stack -/

/-- 43_call_stack.md R90: the value is appended always, as long as the build has room (the reference model
always has), and the diagnostic looks only at the length before the push. -/
def Obligations.PushAppendsTheWord : Prop :=
  (∀ w : Word, decode (0x90#8 ++ w) = .ok (.push w)) ∧
  (∀ (s : State) (w : Word), Safety.HasRoom s →
    exec (.push w) s =
      .next { s with
        stack := s.stack ++ [w]
        response := ⟨false, 0x0000#16, if 16 < s.stack.length then .stackOverflowSoft else .none⟩ })

/-- 43_call_stack.md R91. -/
def Obligations.PopRemovesTheLastEntry : Prop :=
  decode 0xA00000#24 = .ok .pop ∧
  (∀ s : State, s.stack = [] →
    exec .pop s = .next { s with response := ⟨true, 0x0000#16, .stackUnderflow⟩ }) ∧
  (∀ (s : State) (l : List Word) (w : Word), s.stack = l ++ [w] →
    exec .pop s = .next { s with stack := l, response := ⟨true, w, .none⟩ })

/-- 30_encoding.md R57: an underflow and a genuine entry 0x0000 differ in `diag` alone. -/
def Obligations.UnderflowIsToldByDiagAlone : Prop :=
  ∀ s t : State, s.stack = [] → t.stack = [0x0000#16] → ∃ s' t',
    exec .pop s = .next s' ∧ exec .pop t = .next t' ∧
    s'.response = ⟨true, 0x0000#16, .stackUnderflow⟩ ∧ t'.response = ⟨true, 0x0000#16, .none⟩ ∧
    s'.stack = [] ∧ t'.stack = []

/-- 43_call_stack.md R95: the stack changes only at its end and only by PUSH, POP and reset. -/
def Obligations.StackAfterAStep : Prop :=
  ∀ s t : State, step s = .next t →
    (s.presented.rst = true → t.stack = []) ∧
    (∀ w, Safety.executes s.presented = some (.push w) → t.stack = s.stack ++ [w]) ∧
    (Safety.executes s.presented = some .pop → t.stack = s.stack.dropLast) ∧
    (s.presented.rst = false → (∀ w, Safety.executes s.presented ≠ some (.push w)) →
      Safety.executes s.presented ≠ some .pop → t.stack = s.stack)

/-- 43_call_stack.md R92: last in, first out, for any number of entries and from any stack. -/
def Obligations.StackIsLastInFirstOut : Prop :=
  ∀ (s : State) (ws : List Word) (rest : List PortInput), s.stackCapacity = none →
    ∃ u, Safety.run (2 * ws.length)
        { s with inputs := ws.map (fun w => Safety.inputOf (.push w)) ++
                   List.replicate ws.length (Safety.inputOf .pop) ++ rest } = .next u ∧
      Safety.SameBlock s u ∧ u.inputs = rest ∧
      (Safety.responses (2 * ws.length)
        { s with inputs := ws.map (fun w => Safety.inputOf (.push w)) ++
                   List.replicate ws.length (Safety.inputOf .pop) ++ rest }).drop ws.length =
        ws.reverse.map (fun w => ⟨true, w, .none⟩)

/-- 43_call_stack.md R93: twenty values from a fresh block, the 18th to the 20th push with a diagnostic, the
twenty pops without one, and a 21st pop that underflows. -/
def Obligations.TwentyDeepLosesNothing : Prop :=
  ∀ ws : List Word, ws.length = 20 →
    Safety.responses 41
      { State.reset with
        inputs := ws.map (fun w => Safety.inputOf (.push w)) ++
          List.replicate 21 (Safety.inputOf .pop) } =
      List.replicate 17 ⟨false, 0x0000#16, .none⟩ ++
      List.replicate 3 ⟨false, 0x0000#16, .stackOverflowSoft⟩ ++
      ws.reverse.map (fun w => ⟨true, w, .none⟩) ++
      [⟨true, 0x0000#16, .stackUnderflow⟩]

/-- 43_call_stack.md R94, D8: a PUSH onto a full stack of a finite build is refused. Two clauses are the
model's: that no other step is refused, since a reserved word's step is the hardware's although R54 and D4 ask a
model to refuse it (notes/assumptions/3.md, DESIGN CHOICE) and a step without input is idle
(notes/assumptions/2.md, DESIGN CHOICE); and that State.reset is of the unbounded build
(notes/assumptions/4.md, DESIGN CHOICE). -/
def Obligations.OnlyAFullFiniteStackRefuses : Prop :=
  (∀ (s : State) (w : Word) (c : Nat), s.stackCapacity = some c → c ≤ s.stack.length →
    exec (.push w) s = .refused .stackAtCapacity) ∧
  (∀ (s : State) (r : Refusal), step s = .refused r → r = .stackAtCapacity ∧
    (∃ w, Safety.executes s.presented = some (.push w)) ∧
    ∃ c, s.stackCapacity = some c ∧ c ≤ s.stack.length) ∧
  State.reset.stackCapacity = none

/-- 43_call_stack.md R94: a run of a finite build that never asks for more than its capacity is a run of the
unbounded reference model, with the same answers. -/
def Obligations.FiniteBuildRefinesTheReference : Prop :=
  ∀ (n : Nat) (s t : State), Safety.run n s = .next t →
    Safety.run n { s with stackCapacity := none } = .next { t with stackCapacity := none } ∧
    Safety.responses n { s with stackCapacity := none } = Safety.responses n s

/-- 10_state.md section 1 (length 0 to `STACK_CAPACITY`). -/
def Obligations.StackFitsIsKept : Prop :=
  ∀ s t : State, Safety.StackFits s → step s = .next t → Safety.StackFits t

/-- 10_state.md R26 gives PC, I and the stack after reset, from which the invariants hold there. Two parts are
the model's: that no input is to come, by which no odd load is (notes/assumptions/2.md, DESIGN CHOICE), and that
the build is unbounded, by which the stack fits (notes/assumptions/4.md, DESIGN CHOICE). -/
def Obligations.ResetMeetsTheInvariants : Prop :=
  Safety.StackFits State.reset ∧ Safety.EvenPc State.reset ∧ Safety.Conventional State.reset

/-! ## Responses and diagnostics -/

/-- 30_encoding.md R56: what a step answers on `rsp_valid` and `rsp_data`. -/
def Obligations.ResponseOfAStep : Prop :=
  ∀ s t : State, step s = .next t →
    (∀ x, Safety.executes s.presented = some (.getv x) →
      t.response.valid = true ∧ t.response.data = 0x00#8 ++ s.readV x) ∧
    (Safety.executes s.presented = some .getvf →
      t.response.valid = true ∧ t.response.data = 0x00#8 ++ s.readV 0xF#4) ∧
    (Safety.executes s.presented = some .geti → t.response.valid = true ∧ t.response.data = s.i) ∧
    (Safety.executes s.presented = some .getpc → t.response.valid = true ∧ t.response.data = s.pc) ∧
    (Safety.executes s.presented = some .pop →
      t.response.valid = true ∧ t.response.data = s.stack.getLast?.getD 0x0000#16) ∧
    ((∀ x, Safety.executes s.presented ≠ some (.getv x)) → Safety.executes s.presented ≠ some .getvf →
      Safety.executes s.presented ≠ some .geti → Safety.executes s.presented ≠ some .getpc →
      Safety.executes s.presented ≠ some .pop →
        t.response.valid = false ∧ t.response.data = 0x0000#16)

/-- 60_exceptions.md R107: the codes, and exactly when a step emits each diagnostic. -/
def Obligations.DiagnosticOfAStep : Prop :=
  (Diag.none.code = 0#2 ∧ Diag.stackUnderflow.code = 1#2 ∧ Diag.stackOverflowSoft.code = 2#2 ∧
    Diag.illegalCommand.code = 3#2) ∧
  (∀ s t : State, step s = .next t →
    (t.response.diag = .stackUnderflow ↔
      Safety.executes s.presented = some .pop ∧ s.stack = []) ∧
    (t.response.diag = .stackUnderflow → t.response.data = 0x0000#16) ∧
    (t.response.diag = .stackOverflowSoft ↔
      (∃ w, Safety.executes s.presented = some (.push w)) ∧ 16 < s.stack.length) ∧
    (t.response.diag = .illegalCommand ↔ Safety.presentsReserved s.presented = true))

/-- 60_exceptions.md R109: nine commands never emit a diagnostic; only PUSH, POP and a reserved word can. -/
def Obligations.NineCommandsAreSilent : Prop :=
  (∀ (i : Instr) (s : State), (∀ w, i ≠ .push w) → i ≠ .pop →
    ∃ t, exec i s = .next t ∧ t.response.diag = .none) ∧
  (∀ s t : State, step s = .next t → t.response.diag ≠ .none →
    (∃ w, Safety.executes s.presented = some (.push w)) ∨ Safety.executes s.presented = some .pop ∨
      Safety.presentsReserved s.presented = true)

/-- 20_memory.md R38: reads change nothing and may be repeated with the same result; POP both returns a value
and changes state, and is not idempotent. -/
def Obligations.ReadsHaveNoSideEffectButPop : Prop :=
  (∀ (x : RegIndex) (s : State) (n : Nat), ∀ i ∈ [Instr.getv x, .getvf, .geti, .getpc],
    ∃ t, exec i s = .next t ∧ Safety.SameBlock s t ∧ Safety.SameOutside s t ∧
      Safety.execAll (List.replicate (n + 1) i) s = .next t) ∧
  (∀ (i : Instr) (s t : State), exec i s = .next t → t.response.valid = true →
    ¬ Safety.SameBlock s t → i = .pop) ∧
  (∃ s : State, Safety.execAll [.pop, .pop] s ≠ Safety.execAll [.pop] s)

/-- 20_memory.md R40: a command that follows a write sees the new value, for each command that writes and the
commands that read what it wrote. -/
def Obligations.WritesAreVisibleImmediately : Prop :=
  (∀ (s : State) (x : RegIndex) (b : Byte), ∃ t,
    Safety.execAll [.setv x b, .getv x] s = .next t ∧ t.response.data = b.setWidth 16) ∧
  (∀ (s : State) (b : Byte), ∀ wr ∈ [Instr.setvf b, Instr.setv 0xF#4 b], ∀ rd ∈ [Instr.getvf, Instr.getv 0xF#4],
    ∃ t, Safety.execAll [wr, rd] s = .next t ∧ t.response.data = b.setWidth 16) ∧
  (∀ (s : State) (w : Word), ∃ t,
    Safety.execAll [.seti w, .geti] s = .next t ∧ t.response.data = w) ∧
  (∀ (s : State) (w : Word), ∃ t,
    Safety.execAll [.setpc w, .getpc] s = .next t ∧ t.response.data = w) ∧
  (∀ s : State, ∃ t,
    Safety.execAll [.incpc, .getpc] s = .next t ∧ t.response.data.toNat = (s.pc.toNat + 2) % 2 ^ 16) ∧
  (∀ s : State, s.pc = 0x0200#16 → ∃ t,
    Safety.execAll [.incpc, .incpc] s = .next t ∧ t.pc = 0x0204#16) ∧
  (∀ (s : State) (w : Word), Safety.HasRoom s → ∃ t,
    Safety.execAll [.push w, .pop] s = .next t ∧ t.response = ⟨true, w, .none⟩ ∧ t.stack = s.stack) ∧
  (∀ (s : State) (l : List Word) (v w : Word), s.stack = l ++ [v, w] → ∃ t,
    Safety.execAll [.pop, .pop] s = .next t ∧ t.response = ⟨true, v, .none⟩ ∧ t.stack = l)

/-- 30_encoding.md R51: all 16 bits of `d` reach I, PC or the stack. -/
def Obligations.WordOperandsAreNotMasked : Prop :=
  ∀ (s : State) (d : Word) (rest : List PortInput),
    (∃ t, step { s with inputs := ⟨false, true, 0x50#8 ++ d⟩ :: rest } = .next t ∧ t.i = d) ∧
    (∃ t, step { s with inputs := ⟨false, true, 0x70#8 ++ d⟩ :: rest } = .next t ∧ t.pc = d) ∧
    (Safety.HasRoom s →
      ∃ t, step { s with inputs := ⟨false, true, 0x90#8 ++ d⟩ :: rest } = .next t ∧
        t.stack = s.stack ++ [d])

/-- 70_reset_and_hazards.md R131, seen from the caller: a command that keeps the conventions, in a state that
keeps them, completes in silence and keeps them. -/
def Obligations.ConventionalCallerIsServedInSilence : Prop :=
  ∀ (i : Instr) (s : State), wellFormedCapacity s.stackCapacity = true → Safety.Conventional s →
    Safety.conventional i s = true →
      ∃ t, exec i s = .next t ∧ t.response.diag = .none ∧ Safety.Conventional t

/-- 60_exceptions.md R120, 10_state.md section 6: the commands can tell any two states of the block apart.
Two blocks of the reference model that answer every sequence of inputs alike hold the same state. -/
def Obligations.AnswersDetermineTheBlock : Prop :=
  ∀ s t : State, s.stackCapacity = none → t.stackCapacity = none →
    (∀ (ins : List PortInput) (n : Nat),
      Safety.responses n { s with inputs := ins } = Safety.responses n { t with inputs := ins }) →
    Safety.SameBlock s t

/-! ## Assembler syntax -/

/-- 30_encoding.md R59: the round trip of a listing. The one text of a command that `showInstr` writes, its
numbers with `0x` and upper-case digits (notes/assumptions/7.md, DESIGN CHOICE), assembles to that command. The
other texts of a number are in NumbersAssembleWithinTheirRange. -/
def Obligations.ListedCommandsAssemble : Prop :=
  ∀ i : Instr, assembleLine (showInstr i) = some i

/-- 30_encoding.md R59: a number is written in decimal, or in hexadecimal with the prefix `0x`, and an operand
outside its range does not assemble. For every text of either kind, with any number of digits (that leading zeros
count for nothing is notes/assumptions/7.md, DESIGN CHOICE), each of the five commands with a number operand
assembles exactly when the number is in the operand's range. -/
def Obligations.NumbersAssembleWithinTheirRange : Prop :=
  ∀ (ds : List (BitVec 4)) (text : List Char) (n : Nat), ds ≠ [] →
    ((text = '0' :: 'x' :: ds.map hexDigit ∧ n = Nat.ofDigits 16 (ds.reverse.map BitVec.toNat)) ∨
      ((∀ d ∈ ds, d.toNat < 10) ∧ text = ds.map hexDigit ∧
        n = Nat.ofDigits 10 (ds.reverse.map BitVec.toNat))) →
    (∀ x : RegIndex, assembleLine ("SETV V".toList ++ [hexDigit x] ++ ", ".toList ++ text) =
      if n ≤ 255 then some (.setv x (BitVec.ofNat 8 n)) else none) ∧
    (assembleLine ("SETVF ".toList ++ text) =
      if n ≤ 255 then some (.setvf (BitVec.ofNat 8 n)) else none) ∧
    (assembleLine ("SETI ".toList ++ text) =
      if n ≤ 65535 then some (.seti (BitVec.ofNat 16 n)) else none) ∧
    (assembleLine ("SETPC ".toList ++ text) =
      if n ≤ 65535 then some (.setpc (BitVec.ofNat 16 n)) else none) ∧
    (assembleLine ("PUSH ".toList ++ text) =
      if n ≤ 65535 then some (.push (BitVec.ofNat 16 n)) else none)
end

