-- ==== Sys2Proof/Laws/Assembler.lean ====
section
/-! SUPPORT. Digits, numbers and operands of the assembler syntax (30_encoding.md R59): a digit reads back as its
value, digits as the number they write, and a number assembles exactly within the range of its operand. -/

namespace Sys2Proof.Machine

theorem digitValue_hexDigit (n : BitVec 4) : digitValue (hexDigit n) = some n.toNat := by
  revert n; decide

/-- No digit is a character that the syntax of a line uses for something else. -/
theorem hexDigit_ne (n : BitVec 4) : hexDigit n ≠ ' ' ∧ hexDigit n ≠ ',' ∧ hexDigit n ≠ 'x' := by
  revert n; decide

theorem mapM_digitValue (ds : List (BitVec 4)) :
    (ds.map hexDigit).mapM digitValue = some (ds.map BitVec.toNat) := by
  induction ds with
  | nil => rfl
  | cons d ds ih => simp [List.mapM_cons, digitValue_hexDigit, ih]

/-- What digits of the base write. -/
theorem readDigits_map_hexDigit {base : Nat} {ds : List (BitVec 4)} (h : ∀ d ∈ ds, d.toNat < base) :
    readDigits base (ds.map hexDigit) =
      some ((ds.map BitVec.toNat).foldl (fun n d => base * n + d) 0) := by
  have hall : (ds.map BitVec.toNat).all (· < base) = true := by simpa using h
  simp only [readDigits, mapM_digitValue, Option.bind_eq_bind, Option.bind_some, hall, if_true]

/-- An operand assembles exactly when its number fits. -/
theorem numberOperand_of_readNumber {cs : List Char} {n : Nat} (width : Nat) (h : readNumber cs = some n) :
    numberOperand width cs = if n < 2 ^ width then some (BitVec.ofNat width n) else none := by
  simp [numberOperand, h]

theorem dropWhile_space_of_not_mem {l : List Char} (h : ' ' ∉ l) : l.dropWhile (· = ' ') = l := by
  cases l with
  | nil => rfl
  | cons c l =>
    simp only [List.mem_cons, not_or] at h
    simp [List.dropWhile, Ne.symm h.1]

/-- A piece without a space is left as it is. -/
theorem trimSpaces_of_not_mem {l : List Char} (h : ' ' ∉ l) : trimSpaces l = l := by
  unfold trimSpaces
  rw [dropWhile_space_of_not_mem h, dropWhile_space_of_not_mem (by simpa using h), List.reverse_reverse]

/-- A text without a comma is one piece. -/
theorem splitAtCommas_of_not_mem {l : List Char} (h : ',' ∉ l) : splitAtCommas l = [l] := by
  induction l with
  | nil => rfl
  | cons c l ih =>
    simp only [List.mem_cons, not_or] at h
    simp [splitAtCommas, ih h.2, Ne.symm h.1]

theorem registerOperand_showRegister (x : RegIndex) : registerOperand (showRegister x) = some x := by
  simp [registerOperand, showRegister, digitValue_hexDigit]

end Sys2Proof.Machine
end

