-- ==== Sys2Proof/Laws/State.lean ====
section
/-! SUPPORT. One lemma per field per update of State, true by rfl: no later proof unfolds a record update. -/

namespace Sys2Proof.Machine

@[simp] theorem State.writeV_v (s : State) (x : RegIndex) (b : Byte) : (s.writeV x b).v = s.v.set x.toNat b x.isLt := rfl
@[simp] theorem State.writeV_i (s : State) (x : RegIndex) (b : Byte) : (s.writeV x b).i = s.i := rfl
@[simp] theorem State.writeV_pc (s : State) (x : RegIndex) (b : Byte) : (s.writeV x b).pc = s.pc := rfl
@[simp] theorem State.writeV_stack (s : State) (x : RegIndex) (b : Byte) : (s.writeV x b).stack = s.stack := rfl
@[simp] theorem State.writeV_inputs (s : State) (x : RegIndex) (b : Byte) : (s.writeV x b).inputs = s.inputs := rfl
@[simp] theorem State.writeV_response (s : State) (x : RegIndex) (b : Byte) : (s.writeV x b).response = s.response := rfl
@[simp] theorem State.writeV_stackCapacity (s : State) (x : RegIndex) (b : Byte) : (s.writeV x b).stackCapacity = s.stackCapacity := rfl

@[simp] theorem State.writeVF_v (s : State) (b : Byte) : (s.writeVF b).v = s.v.set 15 b := rfl
@[simp] theorem State.writeVF_i (s : State) (b : Byte) : (s.writeVF b).i = s.i := rfl
@[simp] theorem State.writeVF_pc (s : State) (b : Byte) : (s.writeVF b).pc = s.pc := rfl
@[simp] theorem State.writeVF_stack (s : State) (b : Byte) : (s.writeVF b).stack = s.stack := rfl
@[simp] theorem State.writeVF_inputs (s : State) (b : Byte) : (s.writeVF b).inputs = s.inputs := rfl
@[simp] theorem State.writeVF_response (s : State) (b : Byte) : (s.writeVF b).response = s.response := rfl
@[simp] theorem State.writeVF_stackCapacity (s : State) (b : Byte) : (s.writeVF b).stackCapacity = s.stackCapacity := rfl

@[simp] theorem State.writeI_v (s : State) (w : Word) : (s.writeI w).v = s.v := rfl
@[simp] theorem State.writeI_i (s : State) (w : Word) : (s.writeI w).i = w := rfl
@[simp] theorem State.writeI_pc (s : State) (w : Word) : (s.writeI w).pc = s.pc := rfl
@[simp] theorem State.writeI_stack (s : State) (w : Word) : (s.writeI w).stack = s.stack := rfl
@[simp] theorem State.writeI_inputs (s : State) (w : Word) : (s.writeI w).inputs = s.inputs := rfl
@[simp] theorem State.writeI_response (s : State) (w : Word) : (s.writeI w).response = s.response := rfl
@[simp] theorem State.writeI_stackCapacity (s : State) (w : Word) : (s.writeI w).stackCapacity = s.stackCapacity := rfl

@[simp] theorem State.writePc_v (s : State) (w : Word) : (s.writePc w).v = s.v := rfl
@[simp] theorem State.writePc_i (s : State) (w : Word) : (s.writePc w).i = s.i := rfl
@[simp] theorem State.writePc_pc (s : State) (w : Word) : (s.writePc w).pc = w := rfl
@[simp] theorem State.writePc_stack (s : State) (w : Word) : (s.writePc w).stack = s.stack := rfl
@[simp] theorem State.writePc_inputs (s : State) (w : Word) : (s.writePc w).inputs = s.inputs := rfl
@[simp] theorem State.writePc_response (s : State) (w : Word) : (s.writePc w).response = s.response := rfl
@[simp] theorem State.writePc_stackCapacity (s : State) (w : Word) : (s.writePc w).stackCapacity = s.stackCapacity := rfl

@[simp] theorem State.appendEntry_v (s : State) (w : Word) : (s.appendEntry w).v = s.v := rfl
@[simp] theorem State.appendEntry_i (s : State) (w : Word) : (s.appendEntry w).i = s.i := rfl
@[simp] theorem State.appendEntry_pc (s : State) (w : Word) : (s.appendEntry w).pc = s.pc := rfl
@[simp] theorem State.appendEntry_stack (s : State) (w : Word) : (s.appendEntry w).stack = s.stack ++ [w] := rfl
@[simp] theorem State.appendEntry_inputs (s : State) (w : Word) : (s.appendEntry w).inputs = s.inputs := rfl
@[simp] theorem State.appendEntry_response (s : State) (w : Word) : (s.appendEntry w).response = s.response := rfl
@[simp] theorem State.appendEntry_stackCapacity (s : State) (w : Word) : (s.appendEntry w).stackCapacity = s.stackCapacity := rfl

@[simp] theorem State.removeLastEntry_v (s : State) : s.removeLastEntry.v = s.v := rfl
@[simp] theorem State.removeLastEntry_i (s : State) : s.removeLastEntry.i = s.i := rfl
@[simp] theorem State.removeLastEntry_pc (s : State) : s.removeLastEntry.pc = s.pc := rfl
@[simp] theorem State.removeLastEntry_stack (s : State) : s.removeLastEntry.stack = s.stack.dropLast := rfl
@[simp] theorem State.removeLastEntry_inputs (s : State) : s.removeLastEntry.inputs = s.inputs := rfl
@[simp] theorem State.removeLastEntry_response (s : State) : s.removeLastEntry.response = s.response := rfl
@[simp] theorem State.removeLastEntry_stackCapacity (s : State) : s.removeLastEntry.stackCapacity = s.stackCapacity := rfl

@[simp] theorem State.respond_v (s : State) (r : Response) : (s.respond r).v = s.v := rfl
@[simp] theorem State.respond_i (s : State) (r : Response) : (s.respond r).i = s.i := rfl
@[simp] theorem State.respond_pc (s : State) (r : Response) : (s.respond r).pc = s.pc := rfl
@[simp] theorem State.respond_stack (s : State) (r : Response) : (s.respond r).stack = s.stack := rfl
@[simp] theorem State.respond_inputs (s : State) (r : Response) : (s.respond r).inputs = s.inputs := rfl
@[simp] theorem State.respond_response (s : State) (r : Response) : (s.respond r).response = r := rfl
@[simp] theorem State.respond_stackCapacity (s : State) (r : Response) : (s.respond r).stackCapacity = s.stackCapacity := rfl

@[simp] theorem State.consumed_v (s : State) : s.consumed.v = s.v := rfl
@[simp] theorem State.consumed_i (s : State) : s.consumed.i = s.i := rfl
@[simp] theorem State.consumed_pc (s : State) : s.consumed.pc = s.pc := rfl
@[simp] theorem State.consumed_stack (s : State) : s.consumed.stack = s.stack := rfl
@[simp] theorem State.consumed_inputs (s : State) : s.consumed.inputs = s.inputs.tail := rfl
@[simp] theorem State.consumed_response (s : State) : s.consumed.response = s.response := rfl
@[simp] theorem State.consumed_stackCapacity (s : State) : s.consumed.stackCapacity = s.stackCapacity := rfl

@[simp] theorem State.present_v (s : State) (p : PortInput) : (s.present p).v = s.v := rfl
@[simp] theorem State.present_i (s : State) (p : PortInput) : (s.present p).i = s.i := rfl
@[simp] theorem State.present_pc (s : State) (p : PortInput) : (s.present p).pc = s.pc := rfl
@[simp] theorem State.present_stack (s : State) (p : PortInput) : (s.present p).stack = s.stack := rfl
@[simp] theorem State.present_inputs (s : State) (p : PortInput) : (s.present p).inputs = p :: s.inputs := rfl
@[simp] theorem State.present_response (s : State) (p : PortInput) : (s.present p).response = s.response := rfl
@[simp] theorem State.present_stackCapacity (s : State) (p : PortInput) : (s.present p).stackCapacity = s.stackCapacity := rfl

@[simp] theorem State.resetStep_v (s : State) : s.resetStep.v = Vector.replicate 16 0#8 := rfl
@[simp] theorem State.resetStep_i (s : State) : s.resetStep.i = 0#16 := rfl
@[simp] theorem State.resetStep_pc (s : State) : s.resetStep.pc = 0x0200#16 := rfl
@[simp] theorem State.resetStep_stack (s : State) : s.resetStep.stack = [] := rfl
@[simp] theorem State.resetStep_inputs (s : State) : s.resetStep.inputs = s.inputs := rfl
@[simp] theorem State.resetStep_response (s : State) : s.resetStep.response = Response.silent .none := rfl
@[simp] theorem State.resetStep_stackCapacity (s : State) : s.resetStep.stackCapacity = s.stackCapacity := rfl

@[simp] theorem State.idleStep_v (s : State) : s.idleStep.v = s.v := rfl
@[simp] theorem State.idleStep_i (s : State) : s.idleStep.i = s.i := rfl
@[simp] theorem State.idleStep_pc (s : State) : s.idleStep.pc = s.pc := rfl
@[simp] theorem State.idleStep_stack (s : State) : s.idleStep.stack = s.stack := rfl
@[simp] theorem State.idleStep_inputs (s : State) : s.idleStep.inputs = s.inputs := rfl
@[simp] theorem State.idleStep_response (s : State) : s.idleStep.response = Response.silent .none := rfl
@[simp] theorem State.idleStep_stackCapacity (s : State) : s.idleStep.stackCapacity = s.stackCapacity := rfl

@[simp] theorem State.illegalStep_v (s : State) : s.illegalStep.v = s.v := rfl
@[simp] theorem State.illegalStep_i (s : State) : s.illegalStep.i = s.i := rfl
@[simp] theorem State.illegalStep_pc (s : State) : s.illegalStep.pc = s.pc := rfl
@[simp] theorem State.illegalStep_stack (s : State) : s.illegalStep.stack = s.stack := rfl
@[simp] theorem State.illegalStep_inputs (s : State) : s.illegalStep.inputs = s.inputs := rfl
@[simp] theorem State.illegalStep_response (s : State) : s.illegalStep.response = Response.silent .illegalCommand := rfl
@[simp] theorem State.illegalStep_stackCapacity (s : State) : s.illegalStep.stackCapacity = s.stackCapacity := rfl

/-! ## State.reset -/

@[simp] theorem State.reset_v : State.reset.v = Vector.replicate 16 0#8 := rfl
@[simp] theorem State.reset_i : State.reset.i = 0#16 := rfl
@[simp] theorem State.reset_pc : State.reset.pc = 0x0200#16 := rfl
@[simp] theorem State.reset_stack : State.reset.stack = [] := rfl
@[simp] theorem State.reset_inputs : State.reset.inputs = [] := rfl
@[simp] theorem State.reset_response : State.reset.response = Response.silent .none := rfl
@[simp] theorem State.reset_stackCapacity : State.reset.stackCapacity = none := rfl

/-! ## The ports -/

@[simp] theorem Response.value_valid (w : Word) (d : Diag) : (Response.value w d).valid = true := rfl
@[simp] theorem Response.value_data (w : Word) (d : Diag) : (Response.value w d).data = w := rfl
@[simp] theorem Response.value_diag (w : Word) (d : Diag) : (Response.value w d).diag = d := rfl
@[simp] theorem Response.silent_valid (d : Diag) : (Response.silent d).valid = false := rfl
@[simp] theorem Response.silent_data (d : Diag) : (Response.silent d).data = 0#16 := rfl
@[simp] theorem Response.silent_diag (d : Diag) : (Response.silent d).diag = d := rfl

@[simp] theorem PortInput.command_rst (w : CommandWord) : (PortInput.command w).rst = false := rfl
@[simp] theorem PortInput.command_cmdValid (w : CommandWord) : (PortInput.command w).cmdValid = true := rfl
@[simp] theorem PortInput.command_cmd (w : CommandWord) : (PortInput.command w).cmd = w := rfl

theorem State.presented_of_cons {s : State} {p : PortInput} {rest : List PortInput}
    (h : s.inputs = p :: rest) : s.presented = p := by simp [State.presented, h]

theorem State.presented_of_nil {s : State} (h : s.inputs = []) : s.presented = PortInput.idle := by
  simp [State.presented, h]

end Sys2Proof.Machine
end

