-- ==== Sys2Proof/Laws/Config.lean ====
section
/-! SUPPORT. The parameters that the types fix are those of 00_scope.md R4. -/

namespace Sys2Proof.Machine

theorem byte_width : Byte = BitVec Config.vWidth := rfl

theorem word_width : Word = BitVec Config.addrWidth := rfl

/-- The index field names exactly the `NUM_V` registers (30_encoding.md R47). -/
theorem index_count : 2 ^ 4 = Config.numV := rfl

theorem register_count (s : State) : s.v.toArray.size = Config.numV := s.v.size_toArray

end Sys2Proof.Machine
end

