-- ==== Sys2Proof/Laws/Decode.lean ====
section
/-! SUPPORT. The fields of a laid-out command word, a word as the layout of its fields, and what each format's
decoder answers. -/

namespace Sys2Proof

/-! ## Bit by bit -/

theorem getLsbD_layout (op : Opcode) (x : RegIndex) (d : Word) (k : Nat) :
    (layout op x d).getLsbD k =
      if k < 16 then d.getLsbD k else if k < 20 then x.getLsbD (k - 16) else op.getLsbD (k - 20) := by
  show (op ++ x ++ d : BitVec (4 + 4 + 16)).getLsbD k = _
  rw [BitVec.getLsbD_append]
  by_cases h : k < 16
  · simp [h]
  · rw [BitVec.getLsbD_append]
    by_cases h' : k < 20
    · simp [h, h', show k - 16 < 4 by omega]
    · simp [h, h', show ¬ k - 16 < 4 by omega, show k - 16 - 4 = k - 20 by omega]

theorem getLsbD_byteData (b : Byte) (k : Nat) :
    (byteData b).getLsbD k = if k < 8 then b.getLsbD k else false := by
  show (0x00#8 ++ b : BitVec (8 + 8)).getLsbD k = _
  rw [BitVec.getLsbD_append]
  by_cases h : k < 8 <;> simp [h]

/-! ## Fields and layout -/

@[simp] theorem opField_layout (op : Opcode) (x : RegIndex) (d : Word) : opField (layout op x d) = op := by
  refine BitVec.eq_of_getLsbD_eq fun k hk => ?_
  simp [opField, getLsbD_layout, hk, show ¬ 20 + k < 16 by omega]

@[simp] theorem indexField_layout (op : Opcode) (x : RegIndex) (d : Word) :
    indexField (layout op x d) = x := by
  refine BitVec.eq_of_getLsbD_eq fun k hk => ?_
  simp [indexField, getLsbD_layout, hk, show 16 + k < 20 by omega]

@[simp] theorem dataField_layout (op : Opcode) (x : RegIndex) (d : Word) :
    dataField (layout op x d) = d := by
  refine BitVec.eq_of_getLsbD_eq fun k hk => ?_
  simp [dataField, getLsbD_layout, hk]

/-- A word is the layout of its three fields (R46): no bit of a word is outside them. -/
theorem layout_fields (w : CommandWord) : layout (opField w) (indexField w) (dataField w) = w := by
  refine BitVec.eq_of_getLsbD_eq fun k hk => ?_
  rw [getLsbD_layout]
  split
  · simp [dataField, *]
  split
  · simp [indexField, show k - 16 < 4 by omega, show 16 + (k - 16) = k by omega]
  · simp [opField, show k - 20 < 4 by omega, show 20 + (k - 20) = k by omega]

@[simp] theorem dataHighField_layout_byteData (op : Opcode) (x : RegIndex) (b : Byte) :
    dataHighField (layout op x (byteData b)) = 0#8 := by
  refine BitVec.eq_of_getLsbD_eq fun k hk => ?_
  simp only [dataHighField, BitVec.getLsbD_extractLsb', getLsbD_layout, getLsbD_byteData]
  simp [show 8 + k < 16 by omega]

@[simp] theorem byteField_layout_byteData (op : Opcode) (x : RegIndex) (b : Byte) :
    byteField (layout op x (byteData b)) = b := by
  refine BitVec.eq_of_getLsbD_eq fun k hk => ?_
  simp only [byteField, BitVec.getLsbD_extractLsb', getLsbD_layout, getLsbD_byteData]
  simp [hk, show k < 16 by omega]

/-- With `d[15:8]` zero the data field is its low byte (R52). -/
theorem byteData_byteField {w : CommandWord} (h : dataHighField w = 0#8) :
    byteData (byteField w) = dataField w := by
  refine BitVec.eq_of_getLsbD_eq fun k hk => ?_
  have hb := congrArg (·.getLsbD (k - 8)) h
  rw [getLsbD_byteData]
  split
  · simp [byteField, dataField, *]
  · simp [dataHighField, show k - 8 < 8 by omega, show 8 + (k - 8) = k by omega] at hb
    simp [dataField, hk, hb]

/-- Conversely, a data field with a zero high byte. -/
theorem dataHighField_eq_zero_of_dataField {w : CommandWord} (h : dataField w = 0#16) :
    dataHighField w = 0#8 := by
  refine BitVec.eq_of_getLsbD_eq fun k hk => ?_
  have hb := congrArg (·.getLsbD (8 + k)) h
  simp [dataField, show 8 + k < 16 by omega] at hb
  simp [dataHighField, hk, hb]

/-! ## What each format's decoder answers -/

theorem decodeN_eq_ok {i j : Instr} {w : CommandWord} :
    decodeN i w = .ok j ↔ indexField w = 0#4 ∧ dataField w = 0#16 ∧ i = j := by
  unfold decodeN; split <;> [skip; split] <;> simp_all

theorem decodeX_eq_ok {mk : RegIndex → Instr} {j : Instr} {w : CommandWord} :
    decodeX mk w = .ok j ↔ dataField w = 0#16 ∧ mk (indexField w) = j := by
  unfold decodeX; split <;> simp_all

theorem decodeXB_eq_ok {mk : RegIndex → Byte → Instr} {j : Instr} {w : CommandWord} :
    decodeXB mk w = .ok j ↔ dataHighField w = 0#8 ∧ mk (indexField w) (byteField w) = j := by
  unfold decodeXB; split <;> simp_all

theorem decodeB_eq_ok {mk : Byte → Instr} {j : Instr} {w : CommandWord} :
    decodeB mk w = .ok j ↔ indexField w = 0#4 ∧ dataHighField w = 0#8 ∧ mk (byteField w) = j := by
  unfold decodeB; split <;> [skip; split] <;> simp_all

theorem decodeW_eq_ok {mk : Word → Instr} {j : Instr} {w : CommandWord} :
    decodeW mk w = .ok j ↔ indexField w = 0#4 ∧ mk (dataField w) = j := by
  unfold decodeW; split <;> simp_all

/-! ## Bytes and rows -/

theorem deserialise_serialise_append (w : CommandWord) (rest : List Byte) :
    deserialise (serialise w ++ rest) = some (w, rest) := by
  have : (w.extractLsb' 16 8 ++ w.extractLsb' 8 8 ++ w.extractLsb' 0 8 : BitVec (8 + 8 + 8)) = w := by
    refine BitVec.eq_of_getLsbD_eq fun k hk => ?_
    rw [BitVec.getLsbD_append, BitVec.getLsbD_append]
    by_cases h : k < 8
    · simp [h]
    · by_cases h' : k - 8 < 8
      · simp [h, h', show 8 + (k - 8) = k by omega]
      · simp [h, h', show k - 8 - 8 < 8 by omega, show 16 + (k - 8 - 8) = k by omega]
  exact congrArg (fun v => some (v, rest)) this

/-- A row number of 24 bits is the command word itself. -/
theorem tableWord_toNat (w : CommandWord) : tableWord 24 w.toNat = w := by
  apply BitVec.eq_of_toNat_eq
  have := w.isLt
  simp only [tableWord, BitVec.toNat_ofNat]
  omega

end Sys2Proof
end

