-- ==== Sys2Proof/Laws/PerInstr.lean ====
section
/-! SUPPORT. Statements about every instruction as syntax, one lemma per constructor. -/

namespace Sys2Proof.Laws

/-- The word of a command matches the command's row of the opcode map (30_encoding.md R49). -/
def RowMatch.Statement (i : Instr) : Prop := i.row.selects (encode i) = true

namespace RowMatch

/-- A mask of the top byte sees only `op` and a zero index (format W, R48). -/
theorem selects_layout (op : Opcode) (w : Word) {m : CommandWord} (hm : m = layout op 0#4 0#16) :
    (layout op 0#4 w &&& 0xFF0000#24 == m) = true := by
  subst hm
  rw [beq_iff_eq]
  refine BitVec.eq_of_getLsbD_eq fun k hk => ?_
  rw [BitVec.getLsbD_and, getLsbD_layout, getLsbD_layout]
  interval_cases k <;> simp

theorem getv (x : RegIndex) : Statement (.getv x) := by
  revert x; unfold Statement; decide

theorem setv (x : RegIndex) (b : Byte) : Statement (.setv x b) := by
  simp only [Statement, Instr.row, OpcodeRow.selects, encode, beq_iff_eq]
  refine BitVec.eq_of_getLsbD_eq fun k hk => ?_
  rw [BitVec.getLsbD_and, getLsbD_layout, getLsbD_byteData]
  interval_cases k <;> simp

theorem getvf : Statement .getvf := by unfold Statement; decide

theorem setvf (b : Byte) : Statement (.setvf b) := by
  revert b; unfold Statement; decide

theorem geti : Statement .geti := by unfold Statement; decide

theorem seti (w : Word) : Statement (.seti w) :=
  selects_layout (m := 0x500000#24) 0x5#4 w (by decide)

theorem getpc : Statement .getpc := by unfold Statement; decide

theorem setpc (w : Word) : Statement (.setpc w) :=
  selects_layout (m := 0x700000#24) 0x7#4 w (by decide)

theorem incpc : Statement .incpc := by unfold Statement; decide

theorem push (w : Word) : Statement (.push w) :=
  selects_layout (m := 0x900000#24) 0x9#4 w (by decide)

theorem pop : Statement .pop := by unfold Statement; decide

end RowMatch

end Sys2Proof.Laws
end

