-- ==== Sys2Proof/Laws/Registers.lean ====
section
/-! SUPPORT. Reading and writing the general registers: a read after a write to the same index gives what was
written, and a write leaves every other index alone (40_register_access.md R69). -/

namespace Sys2Proof.Machine

@[simp] theorem State.readV_writeV_self (s : State) (x : RegIndex) (b : Byte) :
    (s.writeV x b).readV x = b := by
  simp [State.readV]

theorem State.readV_writeV_of_ne {x y : RegIndex} (s : State) (b : Byte) (h : y ≠ x) :
    (s.writeV x b).readV y = s.readV y := by
  have : x.toNat ≠ y.toNat := fun e => h (BitVec.eq_of_toNat_eq e.symm)
  simp [State.readV, Vector.getElem_set_ne, this]

/-- What every register holds after a write. -/
theorem State.readV_writeV (s : State) (x y : RegIndex) (b : Byte) :
    (s.writeV x b).readV y = if y = x then b else s.readV y := by
  split
  · next h => subst h; exact s.readV_writeV_self y b
  · next h => exact s.readV_writeV_of_ne b h

/-- Registers are equal when every index reads the same. -/
theorem State.v_eq_of_readV_eq {s t : State} (h : ∀ x, t.readV x = s.readV x) : t.v = s.v := by
  refine Vector.ext fun k hk => ?_
  have hn : (BitVec.ofNat 4 k).toNat = k := by simp; omega
  have hx := h (BitVec.ofNat 4 k)
  simpa only [State.readV, hn] using hx

theorem State.readVF_eq_readV (s : State) : s.readVF = s.readV 0xF#4 := rfl

theorem State.writeVF_eq_writeV (s : State) (b : Byte) : s.writeVF b = s.writeV 0xF#4 b := rfl

/-- Only the `v` field matters to a read. -/
theorem State.readV_congr {s t : State} (h : t.v = s.v) (x : RegIndex) : t.readV x = s.readV x := by
  simp [State.readV, h]

end Sys2Proof.Machine
end

