-- ==== Sys2Proof/Laws/Stack.lean ====
section
/-! SUPPORT. The stack arbiter: everything PUSH and POP can do (43_call_stack.md R90, R91, R94). -/

namespace Sys2Proof.Machine

theorem State.stackFull_of_unbounded {s : State} (h : s.stackCapacity = none) : s.stackFull = false := by
  simp [State.stackFull, h]

theorem State.stackFull_eq_true_iff (s : State) :
    s.stackFull = true ↔ ∃ c, s.stackCapacity = some c ∧ c ≤ s.stack.length := by
  unfold State.stackFull; split <;> simp_all

theorem State.stackFull_eq_false_iff (s : State) :
    s.stackFull = false ↔ ∀ c, s.stackCapacity = some c → s.stack.length < c := by
  unfold State.stackFull; split <;> simp_all

theorem State.lastEntry_eq_none_iff (s : State) : s.lastEntry = none ↔ s.stack = [] :=
  List.getLast?_eq_none_iff

theorem State.lastEntry_eq_some_iff (s : State) (w : Word) :
    s.lastEntry = some w ↔ ∃ l, s.stack = l ++ [w] :=
  List.getLast?_eq_some_iff

/-- A PUSH either appends its operand or, in a full finite build, is refused. -/
theorem execPush_cases (w : Word) (s : State) :
    (s.stackFull = false ∧ execPush w s = (s.appendEntry w).completing s.pushDiag) ∨
      (s.stackFull = true ∧ execPush w s = .refused .stackAtCapacity) := by
  unfold execPush; split <;> simp_all

/-- A POP either reports an empty stack or takes the last entry. -/
theorem execPop_cases (s : State) :
    (s.stack = [] ∧ execPop s = s.returning Config.underflowValue .stackUnderflow) ∨
      (∃ l w, s.stack = l ++ [w] ∧ execPop s = s.removeLastEntry.returning w .none) := by
  unfold execPop
  split
  · next h => exact .inl ⟨s.lastEntry_eq_none_iff.1 h, rfl⟩
  · next w h =>
    obtain ⟨l, hl⟩ := (s.lastEntry_eq_some_iff w).1 h
    exact .inr ⟨l, w, hl, rfl⟩

end Sys2Proof.Machine
end

