-- ==== Sys2Proof/Laws/Step.lean ====
section
/-! SUPPORT. Everything a command and a step can do, said once; the claims cite these and do not unfold
`exec` or `step`. -/

namespace Sys2Proof.Machine

/-! ## The two ways a meaning ends -/

@[simp] theorem State.returning_eq_next {s t : State} {w : Word} {d : Diag} :
    s.returning w d = .next t ↔ s.respond (Response.value w d) = t := by
  simp [State.returning]

@[simp] theorem State.completing_eq_next {s t : State} {d : Diag} :
    s.completing d = .next t ↔ s.respond (Response.silent d) = t := by
  simp [State.completing]

/-! ## A command -/

/-- A command that answers a next state changes the block by one of seven updates and then responds. -/
theorem exec_next_cases {i : Instr} {s t : State} (h : exec i s = .next t) :
    (∃ x, i = .getv x ∧ t = s.respond (Response.value (zext16 (s.readV x)) .none)) ∨
    (∃ x b, i = .setv x b ∧ t = (s.writeV x b).respond (Response.silent .none)) ∨
    (i = .getvf ∧ t = s.respond (Response.value (zext16 s.readVF) .none)) ∨
    (∃ b, i = .setvf b ∧ t = (s.writeVF b).respond (Response.silent .none)) ∨
    (i = .geti ∧ t = s.respond (Response.value s.i .none)) ∨
    (∃ w, i = .seti w ∧ t = (s.writeI w).respond (Response.silent .none)) ∨
    (i = .getpc ∧ t = s.respond (Response.value s.pc .none)) ∨
    (∃ w, i = .setpc w ∧ t = (s.writePc w).respond (Response.silent .none)) ∨
    (i = .incpc ∧ t = (s.writePc (s.pc + 2#16)).respond (Response.silent .none)) ∨
    (∃ w, i = .push w ∧ s.stackFull = false ∧
      t = (s.appendEntry w).respond (Response.silent s.pushDiag)) ∨
    (i = .pop ∧ s.stack = [] ∧ t = s.respond (Response.value 0#16 .stackUnderflow)) ∨
    (∃ l w, i = .pop ∧ s.stack = l ++ [w] ∧
      t = s.removeLastEntry.respond (Response.value w .none)) := by
  cases i with
  | push w =>
    obtain ⟨hf, e⟩ | ⟨_, e⟩ := execPush_cases w s
    · have h' : execPush w s = .next t := h
      rw [e, State.completing_eq_next] at h'
      simp [hf, h'.symm]
    · have h' : execPush w s = .next t := h
      simp [e] at h'
  | pop =>
    have h' : execPop s = .next t := h
    obtain ⟨he, e⟩ | ⟨l, w, hl, e⟩ := execPop_cases s
    · rw [e, State.returning_eq_next] at h'
      simp [he, h'.symm, Config.underflowValue]
    · rw [e, State.returning_eq_next] at h'
      simp [hl, h'.symm]
  | _ =>
    simp only [exec, execGetv, execSetv, execGetvf, execSetvf, execGeti, execSeti, execGetpc, execSetpc,
      execIncpc, State.returning_eq_next, State.completing_eq_next] at h
    simp [h.symm, nextInstructionAddress, Config.pcStep]

/-- The only command without a next state is a PUSH onto a full stack of a finite build. -/
theorem exec_next_or_refused (i : Instr) (s : State) :
    (∃ t, exec i s = .next t) ∨
      (s.stackFull = true ∧ (∃ w, i = .push w) ∧ exec i s = .refused .stackAtCapacity) := by
  cases i with
  | push w =>
    obtain ⟨_, e⟩ | ⟨hf, e⟩ := execPush_cases w s
    · exact .inl ⟨_, e⟩
    · exact .inr ⟨hf, ⟨w, rfl⟩, e⟩
  | pop =>
    obtain ⟨_, e⟩ | ⟨_, _, _, e⟩ := execPop_cases s <;> exact .inl ⟨_, e⟩
  | _ => exact .inl ⟨_, rfl⟩

/-- The inputs to come and the response of the step before play no part in a command. -/
theorem exec_with_outside (i : Instr) (s : State) (ins : List PortInput) (r : Response) :
    exec i { s with inputs := ins, response := r } =
      match exec i s with
      | .next t => .next { t with inputs := ins }
      | .fault f => .fault f
      | .refused f => .refused f := by
  cases i with
  | push w =>
    have hfull : ({ s with inputs := ins, response := r } : State).stackFull = s.stackFull := rfl
    show execPush w _ = _
    unfold exec execPush
    rw [hfull]
    cases s.stackFull <;> rfl
  | pop =>
    have hlast : ({ s with inputs := ins, response := r } : State).lastEntry = s.lastEntry := rfl
    show execPop _ = _
    unfold exec execPop
    rw [hlast]
    cases s.lastEntry <;> rfl
  | _ => rfl

/-! ## A step -/

theorem step_of_cons {s : State} {p : PortInput} {rest : List PortInput} (h : s.inputs = p :: rest) :
    step s = clockEdge p { s with inputs := rest } := by
  simp [step, State.presented, State.consumed, h]

theorem step_of_nil {s : State} (h : s.inputs = []) : step s = .next s.idleStep := by
  have : s.consumed = s := by cases s; simp_all [State.consumed]
  simp [step, State.presented, h, this, clockEdge, PortInput.idle]

theorem clockEdge_reset {p : PortInput} (h : p.rst = true) (s : State) :
    clockEdge p s = .next s.resetStep := by simp [clockEdge, h]

theorem clockEdge_idle {p : PortInput} (hr : p.rst = false) (hv : p.cmdValid = false) (s : State) :
    clockEdge p s = .next s.idleStep := by simp [clockEdge, hr, hv]

theorem clockEdge_command {p : PortInput} {i : Instr} (hr : p.rst = false) (hv : p.cmdValid = true)
    (hd : decode p.cmd = .ok i) (s : State) : clockEdge p s = exec i s := by
  simp [clockEdge, hr, hv, executeWord, hd]

theorem clockEdge_reserved {p : PortInput} {r : Reject} (hr : p.rst = false) (hv : p.cmdValid = true)
    (hd : decode p.cmd = .error r) (s : State) : clockEdge p s = .next s.illegalStep := by
  simp [clockEdge, hr, hv, executeWord, hd]

/-- One clock edge is a reset step, an idle step, a reserved word or a command. -/
theorem clockEdge_cases (p : PortInput) (s : State) :
    (p.rst = true ∧ clockEdge p s = .next s.resetStep) ∨
    (p.rst = false ∧ p.cmdValid = false ∧ clockEdge p s = .next s.idleStep) ∨
    (p.rst = false ∧ p.cmdValid = true ∧ (∃ r, decode p.cmd = .error r) ∧
      clockEdge p s = .next s.illegalStep) ∨
    (∃ i, p.rst = false ∧ p.cmdValid = true ∧ decode p.cmd = .ok i ∧ clockEdge p s = exec i s) := by
  cases hr : p.rst
  · cases hv : p.cmdValid
    · exact .inr (.inl ⟨rfl, rfl, clockEdge_idle hr hv s⟩)
    · cases hd : decode p.cmd with
      | error r => exact .inr (.inr (.inl ⟨rfl, rfl, ⟨r, rfl⟩, clockEdge_reserved hr hv hd s⟩))
      | ok i => exact .inr (.inr (.inr ⟨i, rfl, rfl, rfl, clockEdge_command hr hv hd s⟩))
  · exact .inl ⟨rfl, clockEdge_reset hr s⟩

end Sys2Proof.Machine
end

