-- ==== Sys2Proof/Laws/Run.lean ====
section
/-! SUPPORT. Unrolling a run, its responses and a sequence of commands by one step. -/

namespace Sys2Proof

open Machine

/-! ## The machine's runs -/

@[simp] theorem run_zero (s : State) : Safety.run 0 s = .next s := rfl

theorem run_succ (n : Nat) (s : State) :
    Safety.run (n + 1) s =
      match step s with
      | .next t => Safety.run n t
      | .fault r => .fault r
      | .refused r => .refused r := by
  cases h : step s <;> simp [Safety.run, Host.Core.run, core, h]

theorem run_succ_of_next {s t : State} (h : step s = .next t) (n : Nat) :
    Safety.run (n + 1) s = Safety.run n t := by simp [run_succ, h]

/-- A run goes on from the state it has reached. -/
theorem run_add {m : Nat} {s t : State} (h : Safety.run m s = .next t) (n : Nat) :
    Safety.run (m + n) s = Safety.run n t := by
  induction m generalizing s with
  | zero => simp_all
  | succ m ih =>
    rw [run_succ] at h
    rw [Nat.succ_add, run_succ]
    cases hs : step s with
    | next u => exact ih (by simpa [hs] using h)
    | fault r => simp [hs] at h
    | refused r => simp [hs] at h

@[simp] theorem responses_zero (s : State) : Safety.responses 0 s = [] := rfl

theorem responses_succ_of_next {s t : State} (h : step s = .next t) (n : Nat) :
    Safety.responses (n + 1) s = t.response :: Safety.responses n t := by simp [Safety.responses, h]

/-- The responses of a run are those up to the state it has reached and those after it. -/
theorem responses_add {m : Nat} {s t : State} (h : Safety.run m s = .next t) (n : Nat) :
    Safety.responses (m + n) s = Safety.responses m s ++ Safety.responses n t := by
  induction m generalizing s with
  | zero => simp_all
  | succ m ih =>
    rw [run_succ] at h
    rw [Nat.succ_add]
    cases hs : step s with
    | next u => simp [responses_succ_of_next hs, ih (by simpa [hs] using h)]
    | fault r => simp [hs] at h
    | refused r => simp [hs] at h

theorem length_responses {m : Nat} {s t : State} (h : Safety.run m s = .next t) :
    (Safety.responses m s).length = m := by
  induction m generalizing s with
  | zero => rfl
  | succ m ih =>
    rw [run_succ] at h
    cases hs : step s with
    | next u => simp [responses_succ_of_next hs, ih (by simpa [hs] using h)]
    | fault r => simp [hs] at h
    | refused r => simp [hs] at h

/-! ## Commands in sequence -/

@[simp] theorem execAll_nil (s : State) : Safety.execAll [] s = .next s := rfl

theorem execAll_cons_of_next {i : Instr} {s t : State} (h : exec i s = .next t) (rest : List Instr) :
    Safety.execAll (i :: rest) s = Safety.execAll rest t := by simp [Safety.execAll, h]

/-! ## What an input makes the block execute -/

theorem executes_eq_some {p : PortInput} {i : Instr} :
    Safety.executes p = some i ↔ p.rst = false ∧ p.cmdValid = true ∧ decode p.cmd = .ok i := by
  unfold Safety.executes
  cases hd : decode p.cmd <;> cases p.rst <;> cases p.cmdValid <;> simp [Except.toOption]

theorem executes_eq_none {p : PortInput} :
    Safety.executes p = none ↔
      p.rst = true ∨ p.cmdValid = false ∨ ∃ r, decode p.cmd = .error r := by
  unfold Safety.executes
  cases hd : decode p.cmd <;> cases p.rst <;> cases p.cmdValid <;> simp [Except.toOption]

/-- An executed command is the whole of its step. -/
theorem step_of_executes {s : State} {i : Instr} (h : Safety.executes s.presented = some i) :
    step s = exec i s.consumed := by
  obtain ⟨hr, hv, hd⟩ := executes_eq_some.1 h
  exact clockEdge_command hr hv hd _

/-- A step is a reset step, an idle step, a reserved word's or a command's. -/
theorem step_cases (s : State) :
    (s.presented.rst = true ∧ Safety.executes s.presented = none ∧
      step s = .next s.consumed.resetStep) ∨
    (s.presented.rst = false ∧ s.presented.cmdValid = false ∧ Safety.executes s.presented = none ∧
      step s = .next s.consumed.idleStep) ∨
    (s.presented.rst = false ∧ s.presented.cmdValid = true ∧ (∃ r, decode s.presented.cmd = .error r) ∧
      Safety.executes s.presented = none ∧ step s = .next s.consumed.illegalStep) ∨
    (∃ i, s.presented.rst = false ∧ Safety.executes s.presented = some i ∧
      step s = exec i s.consumed) := by
  obtain ⟨hr, e⟩ | ⟨hr, hv, e⟩ | ⟨hr, hv, hd, e⟩ | ⟨i, hr, hv, hd, e⟩ :=
    clockEdge_cases s.presented s.consumed
  · exact .inl ⟨hr, executes_eq_none.2 (.inl hr), e⟩
  · exact .inr (.inl ⟨hr, hv, executes_eq_none.2 (.inr (.inl hv)), e⟩)
  · exact .inr (.inr (.inl ⟨hr, hv, hd, executes_eq_none.2 (.inr (.inr hd)), e⟩))
  · exact .inr (.inr (.inr ⟨i, hr, executes_eq_some.2 ⟨hr, hv, hd⟩, e⟩))

/-! ## Terms of the claims -/

/-- A value is odd as a number. -/
theorem isOdd_eq (w : Word) : Safety.isOdd w = decide (w.toNat % 2 = 1) := by
  simp [Safety.isOdd, BitVec.getLsbD, Nat.testBit_zero]

theorem sameBlock_respond (s : State) (r : Response) : Safety.SameBlock s (s.respond r) :=
  ⟨rfl, rfl, rfl, rfl⟩

theorem hasRoom_of_unbounded {s : State} (h : s.stackCapacity = none) : Safety.HasRoom s := by
  simp [Safety.HasRoom, h]

/-- There is room exactly when a PUSH is not refused. -/
theorem hasRoom_iff (s : State) : Safety.HasRoom s ↔ s.stackFull = false :=
  s.stackFull_eq_false_iff.symm

end Sys2Proof
end

