-- ==== Sys2Proof/Tests/Slice0.lean ====
section
/-! SUPPORT. Tests of the model against words, vectors and programs the spec prints, and for each statement
with hypotheses a witness that meets them. Expected results are those of spec/95_test_vectors.md,
spec/30_encoding.md section 9 and the rules named. -/

namespace Sys2Proof.Tests

open Machine

/-! ## Helpers -/

/-- The state with a command presented next. -/
def presenting (i : Instr) (s : State) : State := s.present (Safety.inputOf i)

/-- The state with a command word presented next. -/
def presentingWord (w : CommandWord) (s : State) : State := s.present (PortInput.command w)

/-- A stack of `n` entries. -/
def deep (n : Nat) : State := { State.reset with stack := List.replicate n 0x0300#16 }

/-- A full stack of the smallest finite build. -/
def full : State := { deep 20 with stackCapacity := some 20 }

/-- One entry short of it. -/
def nearlyFull : State := { deep 19 with stackCapacity := some 20 }

/-- Every field away from its reset value (95_test_vectors.md T-SETV, last row: `V[i]=0x10+i` for all i). -/
def busy : State :=
  { State.reset with
    v := Vector.ofFn fun k => BitVec.ofNat 8 (0x10 + k.val)
    i := 0x0123#16, pc := 0x0456#16, stack := [0x0789#16] }

/-- The field of the state a step leads to; `d` where there is none. -/
def after {α : Type} (d : α) (f : State → α) (s : State) : α :=
  match step s with
  | .next t => f t
  | .fault _ => d
  | .refused _ => d

/-- The answer of a step. -/
def answer (s : State) : Option Response := after none (fun t => some t.response) s

/-! ## Well-formedness: each check refuses an ill-formed term (30_encoding.md R53, 43_call_stack.md R94) -/

theorem test_wellFormed_refuses_reserved_opcode : wellFormedWord 0xB00000#24 = false := by decide
theorem test_wellFormed_refuses_getv_with_data : wellFormedWord 0x000001#24 = false := by decide
theorem test_wellFormed_refuses_setv_with_wide_data : wellFormedWord 0x13FF2A#24 = false := by decide
theorem test_wellFormed_refuses_getvf_with_index : wellFormedWord 0x210000#24 = false := by decide
theorem test_wellFormed_refuses_setvf_with_index : wellFormedWord 0x3F00FF#24 = false := by decide
theorem test_wellFormed_refuses_setvf_with_wide_data : wellFormedWord 0x3001FF#24 = false := by decide
theorem test_wellFormed_refuses_geti_with_data : wellFormedWord 0x400100#24 = false := by decide
theorem test_wellFormed_refuses_seti_with_index : wellFormedWord 0x510000#24 = false := by decide
theorem test_wellFormed_refuses_getpc_with_index : wellFormedWord 0x680000#24 = false := by decide
theorem test_wellFormed_refuses_setpc_with_index : wellFormedWord 0x7F0200#24 = false := by decide
theorem test_wellFormed_refuses_incpc_with_data : wellFormedWord 0x800002#24 = false := by decide
theorem test_wellFormed_refuses_push_with_index : wellFormedWord 0x910202#24 = false := by decide
theorem test_wellFormed_refuses_pop_with_data : wellFormedWord 0xA00001#24 = false := by decide
theorem test_wellFormed_refuses_small_capacity : wellFormedCapacity (some 19) = false := by decide
theorem test_wellFormed_accepts_least_capacity : wellFormedCapacity (some 20) = true := by decide

/-! ## Decoding: words written out bit by bit from the patterns of 30_encoding.md R48 -/

theorem test_decode_getv : decode 0b0000_1010_00000000_00000000#24 = .ok (.getv 0xA#4) := by decide
theorem test_decode_setv : decode 0b0001_0011_00000000_00101010#24 = .ok (.setv 0x3#4 0x2A#8) := by decide
theorem test_decode_getvf : decode 0b0010_0000_00000000_00000000#24 = .ok .getvf := by decide
theorem test_decode_setvf : decode 0b0011_0000_00000000_10000001#24 = .ok (.setvf 0x81#8) := by decide
theorem test_decode_geti : decode 0b0100_0000_00000000_00000000#24 = .ok .geti := by decide
theorem test_decode_seti : decode 0b0101_0000_10001010_10111100#24 = .ok (.seti 0x8ABC#16) := by decide
theorem test_decode_getpc : decode 0b0110_0000_00000000_00000000#24 = .ok .getpc := by decide
theorem test_decode_setpc : decode 0b0111_0000_00000011_00000001#24 = .ok (.setpc 0x0301#16) := by decide
theorem test_decode_incpc : decode 0b1000_0000_00000000_00000000#24 = .ok .incpc := by decide
theorem test_decode_push : decode 0b1001_0000_00000010_00000010#24 = .ok (.push 0x0202#16) := by decide
theorem test_decode_pop : decode 0b1010_0000_00000000_00000000#24 = .ok .pop := by decide

/-- T-DEC: 0x3F00FF "is not SETV VF". -/
theorem test_decode_refuses_setvf_with_index : decode 0x3F00FF#24 = .error .indexNotZero := by decide

/-- T-DEC: `op` = 0xF. -/
theorem test_decode_refuses_all_ones : decode 0xFFFFFF#24 = .error .reservedOpcode := by decide

/-- R34: byte 0 is bits 23 to 16. -/
theorem test_encodeBytes_setv : encodeBytes (.setv 0x3#4 0x2A#8) = [0x13#8, 0x00#8, 0x2A#8] := by decide

theorem test_decodeBytes_truncated : decodeBytes [0x13#8, 0x00#8] = .error .truncated := by decide

/-- The rows' mnemonics are those of spec/opcode_table.json, in its order. -/
theorem test_mnemonics_of_rows : opcodeRows.map (·.mnemonic) =
    ["GETV", "SETV", "GETVF", "SETVF", "GETI", "SETI", "GETPC", "SETPC", "INCPC", "PUSH", "POP"] := by decide

theorem test_decodeTableWord_push : decodeTableWord 24 0x90FFFF = some (.push 0xFFFF#16) := by decide

theorem test_withFetchWord_runs_first :
    step (State.reset.withFetchWord 24 0x13002A) = exec (.setv 0x3#4 0x2A#8) State.reset := by rfl

/-! ## Steps (95_test_vectors.md section 2) -/

/-- T-GETV: 0x80 is not sign-extended. -/
theorem test_getv_zero_extends :
    answer (presentingWord 0x0A0000#24 (State.reset.writeV 0xA#4 0x80#8)) = some ⟨true, 0x0080#16, .none⟩ := by
  decide

/-- T-GETV: the neighbour of VF is not VF. -/
theorem test_getv_reads_its_own_register :
    answer (presentingWord 0x0F0000#24 (State.reset.writeV 0xE#4 0x7F#8)) = some ⟨true, 0x0000#16, .none⟩ := by
  decide

/-- T-SETV, the frame row: `V[7]=0xAA; V[i]=0x10+i for i != 7`. -/
theorem test_setv_writes_one_register : ∀ x : RegIndex,
    after 0 (·.readV x) (presentingWord 0x1700AA#24 busy) = if x = 0x7#4 then 0xAA#8 else 0x10#8 + x.setWidth 8 := by
  decide

/-- T-SETV, the frame row: I, PC and the stack. -/
theorem test_setv_frame : after (0, 0, []) (fun t => (t.i, t.pc, t.stack)) (presentingWord 0x1700AA#24 busy) =
    (0x0123#16, 0x0456#16, [0x0789#16]) := by
  decide

/-- T-VF: `SETV VF, 0x07` then `GETVF`. -/
theorem test_getvf_reads_register_fifteen :
    answer (presentingWord 0x200000#24 (State.reset.writeV 0xF#4 0x07#8)) = some ⟨true, 0x0007#16, .none⟩ := by
  decide

/-- T-VF: `SETVF 0xFF` stores the whole byte in V[15]. -/
theorem test_setvf_stores_whole_byte :
    after 0 (·.readV 0xF#4) (presentingWord 0x3000FF#24 State.reset) = 0xFF#8 := by decide

/-- S8: `SETI 0xFFFF` then `GETI`, no masking. -/
theorem test_geti_unmasked :
    answer (presentingWord 0x400000#24 (State.reset.writeI 0xFFFF#16)) = some ⟨true, 0xFFFF#16, .none⟩ := by
  decide

/-- T-I: bit 12 is kept. -/
theorem test_seti_keeps_bit_twelve :
    after 0 (·.i) (presentingWord 0x501000#24 State.reset) = 0x1000#16 := by decide

/-- T-PC: PC after reset. -/
theorem test_getpc_after_reset :
    answer (presentingWord 0x600000#24 State.reset) = some ⟨true, 0x0200#16, .none⟩ := by decide

/-- T-PC: an odd target is stored verbatim. -/
theorem test_setpc_stores_odd :
    after 0 (·.pc) (presentingWord 0x700301#24 State.reset) = 0x0301#16 := by decide

/-- T-PC: 0xFFFF wraps to 0x0001. -/
theorem test_incpc_wraps :
    after 0 (·.pc) (presentingWord 0x800000#24 (State.reset.writePc 0xFFFF#16)) = 0x0001#16 := by decide

/-- T-PC: no wrap at 12 bits. -/
theorem test_incpc_passes_twelve_bits :
    after 0 (·.pc) (presentingWord 0x800000#24 (State.reset.writePc 0x0FFE#16)) = 0x1000#16 := by decide

/-- T-PUSH, `n = 16`: the 17th push is silent (90_conflicts.md C1). -/
theorem test_push_seventeenth_is_silent :
    answer (presentingWord 0x900ABC#24 (deep 16)) = some ⟨false, 0x0000#16, .none⟩ := by decide

/-- T-PUSH, `n = 17`: the 18th push reports, and appends at the end. -/
theorem test_push_eighteenth_reports :
    after (none, 0, none) (fun t => (some t.response, t.stack.length, t.stack.getLast?))
      (presentingWord 0x900ABC#24 (deep 17)) =
    (some ⟨false, 0x0000#16, .stackOverflowSoft⟩, 18, some 0x0ABC#16) := by decide

/-- T-POP: the last entry is returned and removed. -/
theorem test_pop_takes_the_last :
    after (none, []) (fun t => (some t.response, t.stack))
      (presentingWord 0xA00000#24 { State.reset with stack := [0x0202#16, 0x0300#16] }) =
    (some ⟨true, 0x0300#16, .none⟩, [0x0202#16]) := by decide

/-- T-POP: an empty stack. -/
theorem test_pop_underflows :
    after (none, [1#16]) (fun t => (some t.response, t.stack)) (presentingWord 0xA00000#24 State.reset) =
    (some ⟨true, 0x0000#16, .stackUnderflow⟩, []) := by decide

/-- T-RSV, step 6: a reserved word does not push. -/
theorem test_reserved_word_does_not_push :
    after (none, [1#16]) (fun t => (some t.response, t.stack)) (presentingWord 0x910202#24 State.reset) =
    (some ⟨false, 0x0000#16, .illegalCommand⟩, []) := by decide

/-- T-RST: with `cmd` = 0x900ABC the PUSH is not executed. -/
theorem test_reset_overrides_push :
    after (none, [1#16], 0) (fun t => (some t.response, t.stack, t.pc))
      (busy.present ⟨true, true, 0x900ABC#24⟩) =
    (some ⟨false, 0x0000#16, .none⟩, [], 0x0200#16) := by decide

/-- T-IDLE: `cmd` is ignored, no push and no ILLEGAL_COMMAND. -/
theorem test_idle_ignores_command :
    after (none, []) (fun t => (some t.response, t.stack)) (busy.present ⟨false, false, 0x900ABC#24⟩) =
    (some ⟨false, 0x0000#16, .none⟩, [0x0789#16]) := by decide

/-- S3: four commands in a row. -/
theorem test_vf_aliasing_run :
    (Safety.responses 4 { State.reset with inputs :=
      [0x3000FF#24, 0x0F0000#24, 0x1F0001#24, 0x200000#24].map PortInput.command }).map (·.data) =
    [0x0000#16, 0x00FF#16, 0x0000#16, 0x0001#16] := by decide

/-! ## Assembler syntax (30_encoding.md R59) -/

theorem test_assemble_setv : assembleLine "SETV V3, 0x2A".toList = some (.setv 0x3#4 0x2A#8) := by decide

theorem test_assemble_decimal : assembleLine "PUSH 514".toList = some (.push 0x0202#16) := by decide

/-- "An operand outside its range does not assemble." -/
theorem test_assemble_refuses_wide_byte : assembleLine "SETVF 256".toList = none := by decide

/-- `V` is followed by one hexadecimal digit. -/
theorem test_assemble_refuses_register_sixteen : assembleLine "GETV V10".toList = none := by decide

/-- The spec's own example of a listing line. -/
theorem test_listing_of_underflow :
    showStep (PortInput.command 0xA00000#24) ⟨true, 0x0000#16, .stackUnderflow⟩ =
      "POP -> 0x0000 [STACK_UNDERFLOW]".toList := by decide

/-- Without a returned value the diagnostic follows the command: the model's choice (notes/assumptions/7.md). -/
theorem test_listing_of_overflow :
    showStep (PortInput.command 0x900ABC#24) ⟨false, 0x0000#16, .stackOverflowSoft⟩ =
      "PUSH 0x0ABC [STACK_OVERFLOW_SOFT]".toList := by decide

/-! ## Witnesses: a concrete state and operands for the hypotheses of each statement that has some -/

/-- The two states differ, and the reset makes them alike. -/
theorem witness_NothingSurvivesAReset :
    PortInput.reset.rst = true ∧ busy.stackCapacity = State.reset.stackCapacity ∧ busy ≠ State.reset := by
  decide

theorem witness_IdleStepsHoldTheState :
    ∀ p ∈ [(⟨false, false, 0xFFFFFF#24⟩ : PortInput)], p.rst = false ∧ p.cmdValid = false := by decide

theorem witness_StepWithoutInputIsIdle : busy.inputs = [] := by decide

theorem witness_ReservedWordHoldsTheState : wellFormedWord 0x130100#24 = false := by decide

theorem witness_DecodingFollowsTheOpcodeMap_rows :
    (Instr.push 0).row ∈ opcodeRows ∧ (Instr.push 0).row.selects 0x90FFFF#24 = true ∧
      ∀ r ∈ opcodeRows, r.selects 0xB00000#24 = false := by decide

theorem witness_DecodingFollowsTheOpcodeMap_answer : ∃ t, exec .pop busy = .next t := ⟨_, rfl⟩

theorem witness_OperandsAreContiguousFields :
    decode 0x0F0000#24 = .ok (.getv 0xF#4) ∧ decode 0x1F00FF#24 = .ok (.setv 0xF#4 0xFF#8) ∧
    decode 0x3000FF#24 = .ok (.setvf 0xFF#8) ∧ decode 0x50FFFF#24 = .ok (.seti 0xFFFF#16) ∧
    decode 0x70FFFF#24 = .ok (.setpc 0xFFFF#16) ∧ decode 0x90FFFF#24 = .ok (.push 0xFFFF#16) := by decide

theorem witness_DecodeAndEncodeAgree : decode 0x1F00FF#24 = .ok (.setv 0xF#4 0xFF#8) := by decide

theorem witness_StepRunsTheDecodedCommand : decode 0x900202#24 = .ok (.push 0x0202#16) := by decide

/-- Used by every statement about the unbounded reference model. -/
theorem witness_unbounded : busy.stackCapacity = none ∧ (deep 17).stackCapacity = none := by decide

theorem witness_EveryStepTakesOneInput :
    ∃ t, step (presenting .pop nearlyFull) = .next t := ⟨_, rfl⟩

theorem witness_SetvStoresTheByte_other : (0x0#4 : RegIndex) ≠ 0xF#4 := by decide

theorem witness_SetvStoresTheByte_wide :
    (0x130100#24 : CommandWord).extractLsb' 20 4 = 0x1#4 ∧
      (0x130100#24 : CommandWord).extractLsb' 8 8 ≠ 0#8 := by decide

theorem witness_SetvfStoresTheByte : (0xE#4 : RegIndex) ≠ 0xF#4 := by decide

theorem witness_NoCommandWritesVFAsASideEffect :
    (∃ t, exec (.setv 0xE#4 0x80#8) busy = .next t) ∧ (∀ b, Instr.setv 0xE#4 0x80#8 ≠ .setvf b) ∧
      (∀ b, Instr.setv 0xE#4 0x80#8 ≠ .setv 0xF#4 b) := ⟨⟨_, rfl⟩, by simp, by simp⟩

theorem witness_RegisterFamilyLaws :
    (0x0#4 : RegIndex) ≠ 0xF#4 ∧ (0x00#8 : Byte) ≠ 0xFF#8 ∧ ∃ t, exec (.setv 0x0#4 0xFF#8) busy = .next t :=
  ⟨by decide, by decide, _, rfl⟩

/-- Reset, SETV of the last register, SETVF, and a command that writes no register. -/
theorem witness_GeneralRegistersAfterAStep :
    (∃ t, step (busy.present PortInput.reset) = .next t) ∧
    (busy.present PortInput.reset).presented.rst = true ∧
    (∃ t, step (presenting (.setv 0xF#4 0xFF#8) busy) = .next t) ∧
    Safety.executes (presenting (.setv 0xF#4 0xFF#8) busy).presented = some (.setv 0xF#4 0xFF#8) ∧
    (∃ t, step (presenting (.setvf 0x00#8) busy) = .next t) ∧
    Safety.executes (presenting (.setvf 0x00#8) busy).presented = some (.setvf 0x00#8) ∧
    (∃ t, step (presenting .pop busy) = .next t) ∧ (presenting .pop busy).presented.rst = false ∧
    Safety.executes (presenting .pop busy).presented = some .pop :=
  ⟨⟨_, rfl⟩, by decide, ⟨_, rfl⟩, by decide, ⟨_, rfl⟩, by decide, ⟨_, rfl⟩, by decide, by decide⟩

theorem witness_AddressRegisterAfterAStep :
    (∃ t, step (presenting (.seti 0xFFFF#16) busy) = .next t) ∧
    Safety.executes (presenting (.seti 0xFFFF#16) busy).presented = some (.seti 0xFFFF#16) :=
  ⟨⟨_, rfl⟩, by decide⟩

/-- SETPC, INCPC at the wrap, PUSH. -/
theorem witness_PcStateMachine :
    (∃ t, step (presenting (.setpc 0xFFFF#16) busy) = .next t) ∧
    Safety.executes (presenting (.setpc 0xFFFF#16) busy).presented = some (.setpc 0xFFFF#16) ∧
    (∃ t, step (presenting .incpc (busy.writePc 0xFFFE#16)) = .next t) ∧
    Safety.executes (presenting .incpc (busy.writePc 0xFFFE#16)).presented = some .incpc ∧
    (∃ t, step (presenting (.push 0x0000#16) busy) = .next t) ∧
    Safety.executes (presenting (.push 0x0000#16) busy).presented = some (.push 0x0000#16) :=
  ⟨⟨_, rfl⟩, by decide, ⟨_, rfl⟩, by decide, ⟨_, rfl⟩, by decide⟩

theorem witness_ProgramCounterLaws :
    (∃ t, step (busy.present PortInput.idle) = .next t) ∧
    (busy.present PortInput.idle).presented.rst = false ∧
    Safety.executes (busy.present PortInput.idle).presented = none := ⟨⟨_, rfl⟩, by decide, by decide⟩

theorem witness_IncpcAddsTwo : ∃ t, exec .incpc (State.reset.writePc 0xFFFF#16) = .next t := ⟨_, rfl⟩

theorem witness_EvenPcIsKept :
    Safety.EvenPc (presenting (.setpc 0x0FFE#16) State.reset) ∧
    ∃ t, step (presenting (.setpc 0x0FFE#16) State.reset) = .next t := ⟨by decide, _, rfl⟩

/-- Unbounded at any depth, and a finite build one entry short of full. -/
theorem witness_PushAppendsTheWord : Safety.HasRoom (deep 17) ∧ Safety.HasRoom nearlyFull :=
  ⟨hasRoom_of_unbounded rfl, (hasRoom_iff _).2 (by decide)⟩

/-- The least number out of a byte's range, in hexadecimal and in decimal digits. -/
theorem witness_NumbersAssembleWithinTheirRange :
    "0x100".toList = '0' :: 'x' :: ([1, 0, 0] : List (BitVec 4)).map hexDigit ∧
    256 = Nat.ofDigits 16 (([1, 0, 0] : List (BitVec 4)).reverse.map BitVec.toNat) ∧
    (∀ d ∈ ([2, 5, 6] : List (BitVec 4)), d.toNat < 10) ∧
    "256".toList = ([2, 5, 6] : List (BitVec 4)).map hexDigit ∧
    256 = Nat.ofDigits 10 (([2, 5, 6] : List (BitVec 4)).reverse.map BitVec.toNat) := by decide

theorem witness_WritesAreVisibleImmediately :
    State.reset.pc = 0x0200#16 ∧ Safety.HasRoom nearlyFull ∧
      ((State.reset.appendEntry 0x0202#16).appendEntry 0x0300#16).stack = [] ++ [0x0202#16, 0x0300#16] :=
  ⟨rfl, (hasRoom_iff _).2 (by decide), rfl⟩

theorem witness_PopRemovesTheLastEntry :
    State.reset.stack = [] ∧ busy.stack = [] ++ [0x0789#16] := by decide

theorem witness_UnderflowIsToldByDiagAlone :
    State.reset.stack = [] ∧ (State.reset.appendEntry 0x0000#16).stack = [0x0000#16] := by decide

theorem witness_TwentyDeepLosesNothing : (List.replicate 20 (0x0300#16 : Word)).length = 20 := by decide

theorem witness_OnlyAFullFiniteStackRefuses :
    full.stackCapacity = some 20 ∧ 20 ≤ full.stack.length ∧
    step (presenting (.push 0x0ABC#16) full) = .refused .stackAtCapacity := ⟨by decide, by decide, rfl⟩

theorem witness_FiniteBuildRefinesTheReference :
    ∃ t, Safety.run 1 (presenting (.push 0x0ABC#16) nearlyFull) = .next t := ⟨_, rfl⟩

theorem witness_StackFitsIsKept :
    Safety.StackFits (presenting (.push 0x0ABC#16) nearlyFull) ∧
    ∃ t, step (presenting (.push 0x0ABC#16) nearlyFull) = .next t := ⟨by decide, _, rfl⟩

/-- The five commands that return a value, and an idle step. -/
theorem witness_ResponseOfAStep :
    (∀ i ∈ [Instr.getv 0xF#4, .getvf, .geti, .getpc, .pop],
      Safety.executes (presenting i busy).presented = some i) ∧
    (∃ t, step (presenting .pop State.reset) = .next t) ∧ (∃ t, step busy = .next t) :=
  ⟨by decide, ⟨_, rfl⟩, ⟨_, rfl⟩⟩

/-- Each diagnostic is emitted by some step. -/
theorem witness_DiagnosticOfAStep :
    after none (fun t => some t.response.diag) (presenting .pop State.reset) = some .stackUnderflow ∧
    after none (fun t => some t.response.diag) (presenting (.push 0x0ABC#16) (deep 17)) =
      some .stackOverflowSoft ∧
    after none (fun t => some t.response.diag) (presentingWord 0xB00000#24 busy) = some .illegalCommand := by
  decide

theorem witness_NineCommandsAreSilent :
    (∀ w, Instr.incpc ≠ .push w) ∧ Instr.incpc ≠ .pop ∧
    after none (fun t => some t.response.diag) (presenting .pop State.reset) ≠ some .none :=
  ⟨by simp, by decide, by decide⟩

theorem witness_ReadsHaveNoSideEffectButPop :
    ∃ t, exec .pop busy = .next t ∧ t.response.valid = true ∧ ¬ Safety.SameBlock busy t :=
  ⟨_, rfl, by decide, by decide⟩

/-- The last call within the nominal depth, and a return. -/
theorem witness_ConventionalCallerIsServedInSilence :
    Safety.Conventional (deep 15) ∧ Safety.conventional (.push 0x0ABC#16) (deep 15) = true ∧
    Safety.Conventional (deep 16) ∧ Safety.conventional .pop (deep 16) = true ∧
    Safety.conventional (.setpc 0x0FFE#16) (deep 16) = true ∧
    wellFormedCapacity (deep 16).stackCapacity = true := by decide

theorem witness_AnswersDetermineTheBlock :
    busy.stackCapacity = none ∧ ∀ (ins : List PortInput) (n : Nat),
      Safety.responses n { busy with inputs := ins } = Safety.responses n { busy with inputs := ins } :=
  ⟨rfl, fun _ _ => rfl⟩

end Sys2Proof.Tests
end

namespace Sys2Proof.Proofs

open Sys2Proof.Machine

/-- An idle step changes the response and nothing else (30_encoding.md R58), with the response as the spec
prints it. -/
theorem idleStep_eq (s : State) : s.idleStep = { s with response := ⟨false, 0x0000#16, .none⟩ } := rfl

/-- Settles O5: without an input the port presents `cmd_valid = 0`, so the step is `State.idleStep`. -/
theorem stepWithoutInputIsIdle : Obligations.StepWithoutInputIsIdle := by
  intro s hs
  rw [step_of_nil hs, idleStep_eq]

end Sys2Proof.Proofs

namespace Sys2Proof.Proofs

open Sys2Proof.Machine

/-! ## Reading a register through the updates that leave `v` alone, and after a reset -/

@[simp] theorem readV_respond (s : State) (r : Response) (x : RegIndex) :
    (s.respond r).readV x = s.readV x := rfl

@[simp] theorem readV_consumed (s : State) (x : RegIndex) : s.consumed.readV x = s.readV x := rfl

@[simp] theorem readV_reset (x : RegIndex) : State.reset.readV x = 0x00#8 := by
  simp [State.readV]

@[simp] theorem readV_resetStep (s : State) (x : RegIndex) : s.resetStep.readV x = 0x00#8 :=
  (State.readV_congr rfl x).trans (readV_reset x)

/-! ## What one command answers, and what it does to V, I, PC and the stack -/

theorem exec_getv (x : RegIndex) (s : State) :
    exec (.getv x) s = .next { s with response := ⟨true, (s.readV x).setWidth 16, .none⟩ } := rfl

theorem exec_getvf_eq_getv (s : State) : exec .getvf s = exec (.getv 0xF#4) s := rfl

theorem exec_setv (x : RegIndex) (b : Byte) (s : State) :
    exec (.setv x b) s = .next ((s.writeV x b).respond (Response.silent .none)) := rfl

theorem exec_setvf_eq_setv (b : Byte) (s : State) : exec (.setvf b) s = exec (.setv 0xF#4 b) s := rfl

theorem readV_of_exec_setv {s t : State} {x : RegIndex} {b : Byte}
    (h : exec (.setv x b) s = .next t) : t.readV x = b := by
  rw [exec_setv] at h
  cases h
  simp

theorem i_of_exec_seti {s t : State} {w : Word} (h : exec (.seti w) s = .next t) : t.i = w := by
  cases h
  rfl

theorem pc_of_exec_setpc {s t : State} {w : Word} (h : exec (.setpc w) s = .next t) : t.pc = w := by
  cases h
  rfl

theorem pc_of_exec_incpc {s t : State} (h : exec .incpc s = .next t) : t.pc = s.pc + 2#16 := by
  cases h
  rfl

theorem eq_of_exec_push {s t : State} {w : Word} (h : exec (.push w) s = .next t) :
    t = (s.appendEntry w).respond (Response.silent s.pushDiag) := by
  change execPush w s = .next t at h
  obtain ⟨_, e⟩ | ⟨_, e⟩ := execPush_cases w s
  · exact Host.Outcome.next.inj (h.symm.trans e)
  · simp [e] at h

theorem eq_of_exec_pop {s t : State} (h : exec .pop s = .next t) :
    t = s.respond (Response.value 0x0000#16 .stackUnderflow) ∨
      ∃ w, t = s.removeLastEntry.respond (Response.value w .none) := by
  change execPop s = .next t at h
  obtain ⟨_, e⟩ | ⟨_, w, _, e⟩ := execPop_cases s
  · exact .inl (Host.Outcome.next.inj (h.symm.trans e))
  · exact .inr ⟨w, Host.Outcome.next.inj (h.symm.trans e)⟩

theorem stack_of_exec_push {s t : State} {w : Word} (h : exec (.push w) s = .next t) :
    t.stack = s.stack ++ [w] := by
  rw [eq_of_exec_push h, State.respond_stack, State.appendEntry_stack]

theorem response_valid_of_exec_pop {s t : State} (h : exec .pop s = .next t) :
    t.response.valid = true := by
  obtain rfl | ⟨w, rfl⟩ := eq_of_exec_pop h <;> rfl

/-- The registers V, I and PC change by four kinds of command only, one of the three at a time. -/
theorem exec_registers_cases {i : Instr} {s t : State} (h : exec i s = .next t) :
    (∃ x b, (i = .setv x b ∨ i = .setvf b ∧ x = 0xF#4) ∧
      t.v = (s.writeV x b).v ∧ t.i = s.i ∧ t.pc = s.pc) ∨
    (∃ w, i = .seti w ∧ t.v = s.v ∧ t.i = w ∧ t.pc = s.pc) ∨
    (∃ w, i = .setpc w ∧ t.v = s.v ∧ t.i = s.i ∧ t.pc = w) ∨
    (i = .incpc ∧ t.v = s.v ∧ t.i = s.i ∧ t.pc = s.pc + 2#16) ∨
    (t.v = s.v ∧ t.i = s.i ∧ t.pc = s.pc) := by
  cases i with
  | setv x b =>
    cases h
    exact .inl ⟨x, b, .inl rfl, rfl, rfl, rfl⟩
  | setvf b =>
    cases h
    exact .inl ⟨0xF#4, b, .inr ⟨rfl, rfl⟩, rfl, rfl, rfl⟩
  | seti w =>
    cases h
    exact .inr (.inl ⟨w, rfl, rfl, rfl, rfl⟩)
  | setpc w =>
    cases h
    exact .inr (.inr (.inl ⟨w, rfl, rfl, rfl, rfl⟩))
  | incpc =>
    cases h
    exact .inr (.inr (.inr (.inl ⟨rfl, rfl, rfl, rfl⟩)))
  | push w =>
    obtain rfl := eq_of_exec_push h
    exact .inr (.inr (.inr (.inr ⟨rfl, rfl, rfl⟩)))
  | pop =>
    obtain rfl | ⟨w, rfl⟩ := eq_of_exec_pop h <;> exact .inr (.inr (.inr (.inr ⟨rfl, rfl, rfl⟩)))
  | getv | getvf | geti | getpc =>
    cases h
    exact .inr (.inr (.inr (.inr ⟨rfl, rfl, rfl⟩)))

/-- A general register keeps its value under a command that does not name it (10_state.md R11, R16). -/
theorem readV_of_exec_of_not_named {i : Instr} {s t : State} {x : RegIndex} (h : exec i s = .next t)
    (hset : ∀ b, i ≠ .setv x b) (hvf : ∀ b, i = .setvf b → x ≠ 0xF#4) : t.readV x = s.readV x := by
  obtain ⟨y, b, hi, hv, -⟩ | ⟨_, -, hv, -⟩ | ⟨_, -, hv, -⟩ | ⟨-, hv, -⟩ | ⟨hv, -⟩ :=
    exec_registers_cases h
  · have hxy : x ≠ y := by
      rintro rfl
      obtain hi | ⟨hi, hx⟩ := hi
      · exact hset b hi
      · exact hvf b hi hx
    exact (State.readV_congr hv x).trans (s.readV_writeV_of_ne b hxy)
  all_goals exact State.readV_congr hv x

theorem i_of_exec_of_ne_seti {i : Instr} {s t : State} (h : exec i s = .next t)
    (hset : ∀ w, i ≠ .seti w) : t.i = s.i := by
  obtain ⟨_, _, -, -, hi, -⟩ | ⟨w, e, -⟩ | ⟨_, -, -, hi, -⟩ | ⟨-, -, hi, -⟩ | ⟨-, hi, -⟩ :=
    exec_registers_cases h
  · exact hi
  · exact absurd e (hset w)
  all_goals exact hi

theorem pc_of_exec_of_ne {i : Instr} {s t : State} (h : exec i s = .next t)
    (hload : ∀ w, i ≠ .setpc w) (hinc : i ≠ .incpc) : t.pc = s.pc := by
  obtain ⟨_, _, -, -, -, hpc⟩ | ⟨_, -, -, -, hpc⟩ | ⟨w, e, -⟩ | ⟨e, -⟩ | ⟨-, -, hpc⟩ :=
    exec_registers_cases h
  · exact hpc
  · exact hpc
  · exact absurd e (hload w)
  · exact absurd e hinc
  · exact hpc

/-- A command leaves the inputs to come alone: it answers the same with them written back. -/
theorem inputs_of_exec {i : Instr} {s t : State} (h : exec i s = .next t) : t.inputs = s.inputs := by
  have e : exec i s = .next { t with inputs := s.inputs } := by
    simpa [h] using exec_with_outside i s s.inputs s.response
  have ht : t = { t with inputs := s.inputs } := Host.Outcome.next.inj (h.symm.trans e)
  rw [ht]

/-! ## What one step does -/

theorem eq_resetStep_of_step {s t : State} (h : step s = .next t) (hr : s.presented.rst = true) :
    t = s.consumed.resetStep :=
  Host.Outcome.next.inj (h.symm.trans (clockEdge_reset hr s.consumed))

theorem exec_of_step {s t : State} {i : Instr} (h : step s = .next t)
    (he : Safety.executes s.presented = some i) : exec i s.consumed = .next t :=
  (step_of_executes he).symm.trans h

/-- A step that answers a next state resets, holds the block and responds (idle, reserved word), or executes
a command. -/
theorem step_next_cases {s t : State} (h : step s = .next t) :
    (s.presented.rst = true ∧ t = s.consumed.resetStep) ∨
    (s.presented.rst = false ∧ ∃ r, t = s.consumed.respond r) ∨
    (∃ i, s.presented.rst = false ∧ Safety.executes s.presented = some i ∧
      exec i s.consumed = .next t) := by
  obtain ⟨hr, -, e⟩ | ⟨hr, -, -, e⟩ | ⟨hr, -, -, -, e⟩ | ⟨i, hr, he, e⟩ := step_cases s
  · exact .inl ⟨hr, Host.Outcome.next.inj (h.symm.trans e)⟩
  · exact .inr (.inl ⟨hr, _, Host.Outcome.next.inj (h.symm.trans e)⟩)
  · exact .inr (.inl ⟨hr, _, Host.Outcome.next.inj (h.symm.trans e)⟩)
  · exact .inr (.inr ⟨i, hr, he, e.symm.trans h⟩)

/-- Frame rule of a step: what neither taking an input nor responding changes is kept by a step that is no
reset, if the command executed keeps it. -/
theorem kept_by_step {α : Type} {f : State → α} {s t : State} (h : step s = .next t)
    (hr : s.presented.rst = false) (hconsumed : f s.consumed = f s)
    (hrespond : ∀ r, f (s.consumed.respond r) = f s.consumed)
    (hexec : ∀ i, Safety.executes s.presented = some i → exec i s.consumed = .next t →
      f t = f s.consumed) : f t = f s := by
  refine Eq.trans ?_ hconsumed
  obtain ⟨hr', -⟩ | ⟨-, r, rfl⟩ | ⟨i, -, he, e⟩ := step_next_cases h
  · simp [hr] at hr'
  · exact hrespond r
  · exact hexec i he e

/-- Every step takes the input it samples, a reset step included. -/
theorem inputs_of_step {s t : State} (h : step s = .next t) : t.inputs = s.inputs.tail := by
  obtain ⟨-, rfl⟩ | ⟨-, _, rfl⟩ | ⟨_, -, -, e⟩ := step_next_cases h
  · rfl
  · rfl
  · exact inputs_of_exec e

theorem pc_of_step_of_ne {s t : State} (h : step s = .next t) (hr : s.presented.rst = false)
    (hload : ∀ a, Safety.executes s.presented ≠ some (.setpc a))
    (hinc : Safety.executes s.presented ≠ some .incpc) : t.pc = s.pc :=
  kept_by_step (f := State.pc) h hr rfl (fun _ => rfl) fun _ he e =>
    pc_of_exec_of_ne e (fun a ei => hload a (ei ▸ he)) (fun ei => hinc (ei ▸ he))

/-! ## The obligations on general registers, I and PC -/

/-- Settles O23: the frame rule of a general register, at index 15. -/
theorem noCommandWritesVFAsASideEffect : Obligations.NoCommandWritesVFAsASideEffect := by
  intro i s t h hvf hset
  exact readV_of_exec_of_not_named h hset fun b e => absurd e (hvf b)

/-- Settles O25: reset, the two commands that name a register, and the frame rule for every other step. -/
theorem generalRegistersAfterAStep : Obligations.GeneralRegistersAfterAStep := by
  intro s t x h
  refine ⟨fun hr => ?reset, fun b he => ?setv, fun b he hx => ?setvf, fun hr hset hvf => ?held⟩
  case reset => simp [eq_resetStep_of_step h hr]
  case setv => exact readV_of_exec_setv (exec_of_step h he)
  case setvf =>
    subst hx
    exact readV_of_exec_setv ((exec_setvf_eq_setv b _).symm.trans (exec_of_step h he))
  case held =>
    exact kept_by_step (f := (State.readV · x)) h hr rfl (fun _ => rfl) fun _ he e =>
      readV_of_exec_of_not_named e (fun b ei => hset b (ei ▸ he)) (fun b ei => hvf b (ei ▸ he))

/-- Settles O29: reset, SETI, and the frame rule for every other step. -/
theorem addressRegisterAfterAStep : Obligations.AddressRegisterAfterAStep := by
  intro s t h
  refine ⟨fun hr => ?reset, fun w he => ?seti, fun hr hset => ?held⟩
  case reset => simp [eq_resetStep_of_step h hr]
  case seti => exact i_of_exec_seti (exec_of_step h he)
  case held =>
    exact kept_by_step (f := State.i) h hr rfl (fun _ => rfl) fun _ he e =>
      i_of_exec_of_ne_seti e fun w ei => hset w (ei ▸ he)

/-- Settles O33: one clause per row of the table of R20, PC held by the frame rule. -/
theorem pcStateMachine : Obligations.PcStateMachine := by
  intro s t h
  refine ⟨fun hr => ?reset, fun a he => ?load, fun he => ?advance, pc_of_step_of_ne h,
    fun w he => ?push, fun he => ?pop⟩
  case reset => simp [eq_resetStep_of_step h hr]
  case load => exact pc_of_exec_setpc (exec_of_step h he)
  case advance => simp [pc_of_exec_incpc (exec_of_step h he)]
  case push =>
    have e := exec_of_step h he
    have hpc : t.pc = s.consumed.pc := pc_of_exec_of_ne e (by simp) (by simp)
    have hstack : t.stack = s.consumed.stack ++ [w] := stack_of_exec_push e
    exact ⟨hstack, hpc⟩
  case pop =>
    have e := exec_of_step h he
    have hpc : t.pc = s.consumed.pc := pc_of_exec_of_ne e (by simp) (by simp)
    exact ⟨response_valid_of_exec_pop e, hpc⟩

/-! ## The even PC (10_state.md R21) -/

/-- Adding 2 modulo 2^16 keeps the parity, at the wrap too. -/
theorem isOdd_add_two (a : Word) : Safety.isOdd (a + 2#16) = Safety.isOdd a := by
  simp only [isOdd_eq, BitVec.toNat_add, BitVec.toNat_ofNat, decide_eq_decide]
  omega

/-- A property of every input to come holds of the one presented, if it holds of the idle input. -/
theorem presented_of_forall_inputs {P : PortInput → Prop} {s : State} (hidle : P PortInput.idle)
    (h : ∀ p ∈ s.inputs, P p) : P s.presented := by
  cases hin : s.inputs with
  | nil => exact State.presented_of_nil hin ▸ hidle
  | cons p rest => exact State.presented_of_cons hin ▸ h p (by simp [hin])

theorem loadsOddPc_of_executes_setpc {p : PortInput} {w : Word}
    (h : Safety.executes p = some (.setpc w)) : Safety.loadsOddPc p = Safety.isOdd w := by
  simp [Safety.loadsOddPc, h]

/-- A command keeps an even PC even: a load gives it the parity of its operand, INCPC adds 2, and no other
command changes it. -/
theorem isOdd_pc_of_exec {i : Instr} {s t : State} (h : exec i s = .next t)
    (heven : Safety.isOdd s.pc = false) (hload : ∀ w, i = .setpc w → Safety.isOdd w = false) :
    Safety.isOdd t.pc = false := by
  obtain ⟨_, _, -, -, -, hpc⟩ | ⟨_, -, -, -, hpc⟩ | ⟨w, hi, -, -, hpc⟩ | ⟨-, -, -, hpc⟩ | ⟨-, -, hpc⟩ :=
    exec_registers_cases h
  · rw [hpc, heven]
  · rw [hpc, heven]
  · rw [hpc, hload w hi]
  · rw [hpc, isOdd_add_two, heven]
  · rw [hpc, heven]

/-- A step that presents no odd load keeps an even PC even. -/
theorem isOdd_pc_of_step {s t : State} (h : step s = .next t) (heven : Safety.isOdd s.pc = false)
    (hin : Safety.loadsOddPc s.presented = false) : Safety.isOdd t.pc = false := by
  obtain ⟨-, rfl⟩ | ⟨-, _, rfl⟩ | ⟨i, -, he, e⟩ := step_next_cases h
  · simp [isOdd_eq]
  · exact heven
  · refine isOdd_pc_of_exec e heven fun w hi => ?_
    subst hi
    rw [← loadsOddPc_of_executes_setpc he, hin]

/-- Settles O35: the parity of PC by `isOdd_pc_of_step`, and the inputs to come are a part of those before. -/
theorem evenPcIsKept : Obligations.EvenPcIsKept := by
  rintro s t ⟨heven, hloads⟩ h
  have hin : Safety.loadsOddPc s.presented = false :=
    presented_of_forall_inputs (P := (Safety.loadsOddPc · = false)) rfl hloads
  refine ⟨isOdd_pc_of_step h heven hin, fun p hp => hloads p ?_⟩
  rw [inputs_of_step h] at hp
  exact List.mem_of_mem_tail hp

/-! ## The state after reset, and the two names of V[15] -/

/-- Settles O1. -/
theorem resetHoldsTheStatedValues : Obligations.ResetHoldsTheStatedValues :=
  ⟨State.reset_pc, readV_reset, readV_reset 0xF#4, State.reset_i, State.reset_stack, rfl⟩

/-- Settles O22: either name's write is `SETV VF`, and either name's read is `GETV VF`. -/
theorem flagRegisterIsRegisterFifteen : Obligations.FlagRegisterIsRegisterFifteen := by
  intro s b wr hwr rd hrd
  have hw : exec wr s = exec (.setv 0xF#4 b) s := by
    obtain rfl | rfl : wr = .setvf b ∨ wr = .setv 0xF#4 b := by simpa using hwr
    · exact exec_setvf_eq_setv b s
    · rfl
  have hr : ∀ t, exec rd t = exec (.getv 0xF#4) t := fun t => by
    obtain rfl | rfl : rd = .getvf ∨ rd = .getv 0xF#4 := by simpa using hrd
    · exact exec_getvf_eq_getv t
    · rfl
  refine ⟨_, hw.trans (exec_setv 0xF#4 b s), ?_⟩
  rw [hr, exec_getv, readV_respond, State.readV_writeV_self]

theorem stackFits_of_unbounded {s : State} (h : s.stackCapacity = none) : Safety.StackFits s := by
  simp [Safety.StackFits, h]

theorem evenPc_reset : Safety.EvenPc State.reset := ⟨rfl, by simp⟩

theorem conventional_reset : Safety.Conventional State.reset := ⟨rfl, rfl, by simp⟩

/-- Settles O45. -/
theorem resetMeetsTheInvariants : Obligations.ResetMeetsTheInvariants :=
  ⟨stackFits_of_unbounded State.reset_stackCapacity, evenPc_reset, conventional_reset⟩

end Sys2Proof.Proofs

namespace Sys2Proof.Proofs

open Sys2Proof.Machine

/-! ## Serialised commands (20_memory.md R34) -/

/-- The word of a command decodes to that command: each format reads back its operand fields and finds the
fields it does not have zero (30_encoding.md R48). -/
theorem decode_encode (i : Instr) : decode (encode i) = .ok i := by
  cases i with
  | getv => simp [encode, decode, decodeX_eq_ok]
  | setv => simp [encode, decode, decodeXB_eq_ok]
  | setvf => simp [encode, decode, decodeB_eq_ok]
  | seti | setpc | push => simp [encode, decode, decodeW_eq_ok]
  | getvf | geti | getpc | incpc | pop => simp [encode, decode, decodeN_eq_ok]

theorem decodeBytes_encodeBytes_append (i : Instr) (rest : List Byte) :
    decodeBytes (encodeBytes i ++ rest) = .ok (i, rest) := by
  simp [decodeBytes, encodeBytes, deserialise_serialise_append, decode_encode]

/-- Settles O11. -/
theorem serialisedCommandsReadBack : Obligations.SerialisedCommandsReadBack :=
  fun i rest => ⟨decodeBytes_encodeBytes_append i rest, rfl, rfl⟩

/-! ## Commands in the order presented (20_memory.md R39) -/

theorem executes_inputOf (i : Instr) : Safety.executes (Safety.inputOf i) = some i := by
  simp [executes_eq_some, Safety.inputOf, decode_encode]

/-- A step that is presented a command by its word executes it on the state with only the input taken. -/
theorem step_of_inputOf (i : Instr) (s : State) (rest : List PortInput) :
    step { s with inputs := Safety.inputOf i :: rest } = exec i { s with inputs := rest } :=
  step_of_executes (s := { s with inputs := Safety.inputOf i :: rest }) (executes_inputOf i)

/-- A command that completes does so whatever inputs are to come, and leaves those. -/
theorem exec_with_inputs_of_next {i : Instr} {s t : State} (h : exec i s = .next t)
    (ins : List PortInput) : exec i { s with inputs := ins } = .next { t with inputs := ins } := by
  simpa [h] using exec_with_outside i s ins s.response

/-- A command that is refused is so whatever inputs are to come. -/
theorem exec_with_inputs_of_refused {i : Instr} {s : State} {r : Refusal} (h : exec i s = .refused r)
    (ins : List PortInput) : exec i { s with inputs := ins } = .refused r := by
  simpa [h] using exec_with_outside i s ins s.response

theorem execAll_cons_of_refused {i : Instr} {s : State} {r : Refusal} (h : exec i s = .refused r)
    (is : List Instr) : Safety.execAll (i :: is) s = .refused r := by
  simp [Safety.execAll, h]

/-- Settles O14, by induction on the commands: the first step executes the first command, which takes no
notice of the inputs to come, and the rest of the run starts where it ends. -/
theorem commandsTakeEffectInOrder : Obligations.CommandsTakeEffectInOrder := by
  intro is s rest
  induction is generalizing s with
  | nil => rfl
  | cons i is ih =>
    have hstep : step { s with inputs := (i :: is).map Safety.inputOf ++ rest } =
        exec i { s with inputs := is.map Safety.inputOf ++ rest } := step_of_inputOf i s _
    obtain ⟨t, h⟩ | ⟨-, -, h⟩ := exec_next_or_refused i s
    · rw [execAll_cons_of_next (exec_with_inputs_of_next h rest), ← ih t]
      exact run_succ_of_next (hstep.trans (exec_with_inputs_of_next h _)) is.length
    · rw [execAll_cons_of_refused (exec_with_inputs_of_refused h rest), List.length_cons, run_succ, hstep,
        exec_with_inputs_of_refused h]

/-! ## Two commands in a row -/

theorem execAll_pair_of_next {i j : Instr} {s t u : State} (hi : exec i s = .next t)
    (hj : exec j t = .next u) : Safety.execAll [i, j] s = .next u := by
  rw [execAll_cons_of_next hi, execAll_cons_of_next hj, execAll_nil]

theorem exec_push_of_hasRoom {s : State} (h : Safety.HasRoom s) (w : Word) :
    exec (.push w) s = .next ((s.appendEntry w).respond (Response.silent s.pushDiag)) := by
  obtain ⟨-, e⟩ | ⟨hfull, -⟩ := execPush_cases w s
  · exact e
  · simp [(hasRoom_iff s).1 h] at hfull

theorem exec_pop_of_stack_eq_append {s : State} {l : List Word} {w : Word} (h : s.stack = l ++ [w]) :
    exec .pop s = .next (s.removeLastEntry.respond (Response.value w .none)) := by
  obtain ⟨hnil, -⟩ | ⟨l', w', hw', e⟩ := execPop_cases s
  · simp [hnil] at h
  · obtain ⟨-, rfl⟩ := List.append_singleton_inj.1 (hw'.symm.trans h)
    exact e

/-- Two POPs take the last two entries, the last first; the second answers the last entry but one. -/
theorem execAll_pop_pop {s : State} {l : List Word} {v w : Word} (h : s.stack = l ++ [v, w]) :
    ∃ t, Safety.execAll [.pop, .pop] s = .next t ∧ t.response = ⟨true, v, .none⟩ ∧ t.stack = l := by
  have hfirst : s.stack = l ++ [v] ++ [w] := by simp [h]
  have hsecond : (s.removeLastEntry.respond (Response.value w .none)).stack = l ++ [v] := by
    simp [hfirst]
  exact ⟨_, execAll_pair_of_next (exec_pop_of_stack_eq_append hfirst) (exec_pop_of_stack_eq_append hsecond),
    rfl, by simp [hfirst]⟩

/-! ## Reads (20_memory.md R38) -/

/-- GETV, GETVF, GETI and GETPC only answer, and the answer is the same whatever the block answered before. -/
theorem exec_respond_of_mem_reads {i : Instr} {x : RegIndex}
    (hi : i ∈ [Instr.getv x, .getvf, .geti, .getpc]) (s : State) :
    ∃ w, ∀ r, exec i (s.respond r) = .next (s.respond (Response.value w .none)) := by
  simp only [List.mem_cons, List.not_mem_nil, or_false] at hi
  obtain rfl | rfl | rfl | rfl := hi
  · exact ⟨zext16 (s.readV x), fun _ => rfl⟩
  · exact ⟨zext16 s.readVF, fun _ => rfl⟩
  · exact ⟨s.i, fun _ => rfl⟩
  · exact ⟨s.pc, fun _ => rfl⟩

/-- A command that leads from a state to itself may be repeated there. -/
theorem execAll_replicate_of_fixed {i : Instr} {t : State} (h : exec i t = .next t) (n : Nat) :
    Safety.execAll (List.replicate n i) t = .next t := by
  induction n with
  | zero => rfl
  | succ n ih => rw [List.replicate_succ, execAll_cons_of_next h, ih]

/-- A command that answers a value is POP or leaves the block alone. -/
theorem eq_pop_or_sameBlock_of_response_valid {i : Instr} {s t : State} (h : exec i s = .next t)
    (hv : t.response.valid = true) : i = .pop ∨ Safety.SameBlock s t := by
  cases i with
  | pop => exact .inl rfl
  | push w => simp [eq_of_exec_push h] at hv
  | getv | getvf | geti | getpc =>
    cases h
    exact .inr (sameBlock_respond s _)
  | setv | setvf | seti | setpc | incpc =>
    cases h
    simp at hv

/-- Settles O49: the four reads lead to a state they hold, the other commands that answer are POP, and a stack
of two entries tells one POP from two. -/
theorem readsHaveNoSideEffectButPop : Obligations.ReadsHaveNoSideEffectButPop := by
  refine ⟨fun x s n i hi => ?reads, fun i s t h hv hb => ?onlyPop, ?popTwice⟩
  case reads =>
    obtain ⟨w, hw⟩ := exec_respond_of_mem_reads hi s
    have hfirst : exec i s = .next (s.respond (Response.value w .none)) := hw s.response
    refine ⟨_, hfirst, sameBlock_respond s _, ⟨rfl, rfl⟩, ?_⟩
    rw [List.replicate_succ, execAll_cons_of_next hfirst]
    exact execAll_replicate_of_fixed (hw _) n
  case onlyPop => exact (eq_pop_or_sameBlock_of_response_valid h hv).resolve_right hb
  case popTwice =>
    refine ⟨(State.reset.appendEntry 0x0202#16).appendEntry 0x0300#16, fun heq => ?_⟩
    have hstack : ((State.reset.appendEntry 0x0202#16).appendEntry 0x0300#16).stack =
        [] ++ [0x0202#16, 0x0300#16] := rfl
    have honce := execAll_cons_of_next (exec_pop_of_stack_eq_append (l := [0x0202#16]) hstack) []
    obtain ⟨t, htwice, -, hempty⟩ := execAll_pop_pop hstack
    have ht := Host.Outcome.next.inj (htwice.symm.trans (heq.trans honce))
    simp [ht] at hempty

/-! ## Writes (20_memory.md R40) -/

theorem execAll_incpc_incpc (s : State) :
    ∃ t, Safety.execAll [.incpc, .incpc] s = .next t ∧ t.pc = s.pc + 2#16 + 2#16 :=
  ⟨_, execAll_pair_of_next rfl rfl, rfl⟩

theorem execAll_push_pop {s : State} (h : Safety.HasRoom s) (w : Word) :
    ∃ t, Safety.execAll [.push w, .pop] s = .next t ∧ t.response = ⟨true, w, .none⟩ ∧
      t.stack = s.stack :=
  ⟨_, execAll_pair_of_next (exec_push_of_hasRoom h w) (exec_pop_of_stack_eq_append rfl), rfl, by simp⟩

/-- Settles O50: one pair of commands per clause, the two names of VF by O22. -/
theorem writesAreVisibleImmediately : Obligations.WritesAreVisibleImmediately := by
  refine ⟨fun s x b => ?setv, fun s b wr hwr rd hrd => ?setvf, fun s w => ?seti, fun s w => ?setpc,
    fun s => ?incpc, fun s hpc => ?incpcTwice, fun s w h => execAll_push_pop h w,
    fun s l v w h => execAll_pop_pop h⟩
  case setv =>
    exact ⟨_, execAll_pair_of_next (exec_setv x b s) (exec_getv x _), by simp⟩
  case setvf =>
    obtain ⟨t, hw, hr⟩ := flagRegisterIsRegisterFifteen s b wr hwr rd hrd
    exact ⟨_, execAll_pair_of_next hw hr, rfl⟩
  case seti => exact ⟨_, execAll_pair_of_next rfl rfl, rfl⟩
  case setpc => exact ⟨_, execAll_pair_of_next rfl rfl, rfl⟩
  case incpc => exact ⟨_, execAll_pair_of_next rfl rfl, BitVec.toNat_add s.pc 2#16⟩
  case incpcTwice =>
    obtain ⟨t, h, ht⟩ := execAll_incpc_incpc s
    exact ⟨t, h, by rw [ht, hpc]; rfl⟩

end Sys2Proof.Proofs

namespace Sys2Proof.Proofs

open Sys2Proof.Machine

/-! ## Every command has one word (30_encoding.md R46 to R49) -/

theorem layout_eq_of_fields {w : CommandWord} {op : Opcode} {x : RegIndex} {d : Word}
    (hop : (opField w).toNat = op.toNat) (hx : indexField w = x) (hd : dataField w = d) :
    layout op x d = w := by
  rw [← layout_fields w, BitVec.eq_of_toNat_eq hop, hx, hd]

/-- What a word decodes to has that word: each format keeps the fields it reads as operands and finds the
others as `encode` writes them. -/
theorem encode_of_decode {w : CommandWord} {i : Instr} (h : decode w = .ok i) : encode i = w := by
  unfold decode at h
  split at h
  case h_1 hop =>
    obtain ⟨hd, rfl⟩ := decodeX_eq_ok.1 h
    exact layout_eq_of_fields hop rfl hd
  case h_2 hop =>
    obtain ⟨hd, rfl⟩ := decodeXB_eq_ok.1 h
    exact layout_eq_of_fields hop rfl (byteData_byteField hd).symm
  case h_4 hop =>
    obtain ⟨hx, hd, rfl⟩ := decodeB_eq_ok.1 h
    exact layout_eq_of_fields hop hx (byteData_byteField hd).symm
  case h_6 hop | h_8 hop | h_10 hop =>
    obtain ⟨hx, rfl⟩ := decodeW_eq_ok.1 h
    exact layout_eq_of_fields hop hx rfl
  case h_3 hop | h_5 hop | h_7 hop | h_9 hop | h_11 hop =>
    obtain ⟨hx, hd, rfl⟩ := decodeN_eq_ok.1 h
    exact layout_eq_of_fields hop hx hd
  case h_12 => simp at h

theorem decode_eq_ok_iff {w : CommandWord} {i : Instr} : decode w = .ok i ↔ encode i = w :=
  ⟨encode_of_decode, fun h => h ▸ decode_encode i⟩

/-- Settles O10: `decode_encode` and `encode_of_decode`, the two directions of `decode_eq_ok_iff`. -/
theorem decodeAndEncodeAgree : Obligations.DecodeAndEncodeAgree :=
  ⟨decode_encode, fun _ _ => encode_of_decode⟩

/-! ## Operands (30_encoding.md R50) -/

/-- Settles O9: the word is the command's own, and its fields are those of its layout. -/
theorem operandsAreContiguousFields : Obligations.OperandsAreContiguousFields := by
  refine fun w => ⟨fun x h => ?getv, fun x b h => ?setv, fun b h => ?setvf, fun d h => ?seti,
    fun d h => ?setpc, fun d h => ?push⟩ <;> obtain rfl := encode_of_decode h
  case getv => exact (indexField_layout ..).symm
  case setv => exact ⟨(indexField_layout ..).symm, (byteField_layout_byteData ..).symm⟩
  case setvf => exact (byteField_layout_byteData ..).symm
  case seti | setpc | push => exact (dataField_layout ..).symm

/-! ## The opcode map (30_encoding.md R49) -/

theorem layout_and_layout (op op' : Opcode) (x x' : RegIndex) (d d' : Word) :
    layout op x d &&& layout op' x' d' = layout (op &&& op') (x &&& x') (d &&& d') :=
  BitVec.and_append.trans (congrArg (· ++ (d &&& d')) BitVec.and_append)

theorem layout_eq_iff {w : CommandWord} {op : Opcode} {x : RegIndex} {d : Word} :
    layout op x d = w ↔ opField w = op ∧ indexField w = x ∧ dataField w = d := by
  constructor
  · rintro rfl
    simp
  · rintro ⟨hop, hx, hd⟩
    exact layout_eq_of_fields (congrArg BitVec.toNat hop) hx hd

/-- A mask that keeps `op`, and of `x` and `d` the bits that must be zero, gives the match of a row exactly
when the word has the row's `op` and those bits are zero. -/
theorem and_layout_eq_layout_iff {w : CommandWord} {op : Opcode} {mx : RegIndex} {md : Word} :
    w &&& layout 0xF#4 mx md = layout op 0#4 0#16 ↔
      opField w = op ∧ indexField w &&& mx = 0#4 ∧ dataField w &&& md = 0#16 := by
  have hand : layout (opField w) (indexField w &&& mx) (dataField w &&& md) = w &&& layout 0xF#4 mx md := by
    conv_rhs => rw [← layout_fields w, layout_and_layout]
    rw [show opField w &&& 0xF#4 = opField w from BitVec.and_allOnes]
  rw [← hand, eq_comm, layout_eq_iff]
  simp [eq_comm]

/-- A data field is a byte operand's exactly when its high byte is zero (R52). -/
theorem exists_dataField_eq_byteData_iff {w : CommandWord} :
    (∃ b, dataField w = byteData b) ↔ dataHighField w = 0#8 := by
  constructor
  · rintro ⟨b, hb⟩
    rw [← layout_fields w, hb, dataHighField_layout_byteData]
  · exact fun h => ⟨_, (byteData_byteField h).symm⟩

theorem dataField_and_high_eq_zero_iff {w : CommandWord} :
    dataField w &&& 0xFF00#16 = 0#16 ↔ dataHighField w = 0#8 := by
  have hsplit : dataField w = dataHighField w ++ byteField w :=
    (BitVec.extractLsb'_append_extractLsb'_eq_extractLsb' (w := 24) (start₂ := 8) (start₁ := 0)
      (len₁ := 8) (len₂ := 8) rfl).symm
  have hand : dataField w &&& 0xFF00#16 = dataHighField w ++ 0#8 := by
    have hmask : (0xFF00#16 : Word) = 0xFF#8 ++ 0x00#8 := rfl
    rw [hsplit, hmask, BitVec.and_append, BitVec.and_zero]
    exact congrArg (· ++ 0#8) BitVec.and_allOnes
  rw [hand]
  exact BitVec.append_left_inj (s₂ := 0#8) 0#8

/-! The words of each format, by mask and match. -/

theorem layoutN_eq_iff (op : Opcode) {w : CommandWord} :
    layout op 0#4 0#16 = w ↔ w &&& 0xFFFFFF#24 = layout op 0#4 0#16 := by
  rw [show w &&& 0xFFFFFF#24 = w from BitVec.and_allOnes, eq_comm]

theorem exists_layoutX_eq_iff (op : Opcode) {w : CommandWord} :
    (∃ x, layout op x 0#16 = w) ↔ w &&& 0xF0FFFF#24 = layout op 0#4 0#16 := by
  rw [show (0xF0FFFF#24 : CommandWord) = layout 0xF#4 0x0#4 0xFFFF#16 from rfl, and_layout_eq_layout_iff,
    show dataField w &&& 0xFFFF#16 = dataField w from BitVec.and_allOnes]
  simp [layout_eq_iff]

theorem exists_layoutXB_eq_iff (op : Opcode) {w : CommandWord} :
    (∃ x b, layout op x (byteData b) = w) ↔ w &&& 0xF0FF00#24 = layout op 0#4 0#16 := by
  rw [show (0xF0FF00#24 : CommandWord) = layout 0xF#4 0x0#4 0xFF00#16 from rfl, and_layout_eq_layout_iff,
    dataField_and_high_eq_zero_iff, ← exists_dataField_eq_byteData_iff]
  simp [layout_eq_iff]

theorem exists_layoutB_eq_iff (op : Opcode) {w : CommandWord} :
    (∃ b, layout op 0#4 (byteData b) = w) ↔ w &&& 0xFFFF00#24 = layout op 0#4 0#16 := by
  rw [show (0xFFFF00#24 : CommandWord) = layout 0xF#4 0xF#4 0xFF00#16 from rfl, and_layout_eq_layout_iff,
    dataField_and_high_eq_zero_iff, ← exists_dataField_eq_byteData_iff,
    show indexField w &&& 0xF#4 = indexField w from BitVec.and_allOnes]
  simp [layout_eq_iff]

theorem exists_layoutW_eq_iff (op : Opcode) {w : CommandWord} :
    (∃ d, layout op 0#4 d = w) ↔ w &&& 0xFF0000#24 = layout op 0#4 0#16 := by
  rw [show (0xFF0000#24 : CommandWord) = layout 0xF#4 0xF#4 0x0000#16 from rfl, and_layout_eq_layout_iff,
    show indexField w &&& 0xF#4 = indexField w from BitVec.and_allOnes]
  simp [layout_eq_iff]

/-! The rows. -/

theorem mem_opcodeRows_iff {r : OpcodeRow} : r ∈ opcodeRows ↔ ∃ i : Instr, r = i.row := by
  constructor
  · simp only [opcodeRows, List.mem_cons, List.not_mem_nil, or_false]
    rintro (h | h | h | h | h | h | h | h | h | h | h) <;> exact ⟨_, h⟩
  · rintro ⟨i, rfl⟩
    cases i <;> simp [opcodeRows, Instr.row]

/-- The word of a command matches the command's row. -/
theorem row_selects_encode (i : Instr) : i.row.selects (encode i) = true := by
  cases i with
  | getv x => exact Laws.RowMatch.getv x
  | setv x b => exact Laws.RowMatch.setv x b
  | getvf => exact Laws.RowMatch.getvf
  | setvf b => exact Laws.RowMatch.setvf b
  | geti => exact Laws.RowMatch.geti
  | seti w => exact Laws.RowMatch.seti w
  | getpc => exact Laws.RowMatch.getpc
  | setpc w => exact Laws.RowMatch.setpc w
  | incpc => exact Laws.RowMatch.incpc
  | push w => exact Laws.RowMatch.push w
  | pop => exact Laws.RowMatch.pop

/-- A word that matches a row is the word of a command of that row. -/
theorem exists_encode_eq_of_row_selects {i : Instr} {w : CommandWord} (h : i.row.selects w = true) :
    ∃ j : Instr, j.row = i.row ∧ encode j = w := by
  replace h : w &&& i.row.mask = i.row.pattern := beq_iff_eq.1 h
  cases i with
  | getv =>
    obtain ⟨x, hx⟩ := (exists_layoutX_eq_iff 0x0#4).2 h
    exact ⟨.getv x, rfl, hx⟩
  | setv =>
    obtain ⟨x, b, hxb⟩ := (exists_layoutXB_eq_iff 0x1#4).2 h
    exact ⟨.setv x b, rfl, hxb⟩
  | setvf =>
    obtain ⟨b, hb⟩ := (exists_layoutB_eq_iff 0x3#4).2 h
    exact ⟨.setvf b, rfl, hb⟩
  | seti =>
    obtain ⟨d, hd⟩ := (exists_layoutW_eq_iff 0x5#4).2 h
    exact ⟨.seti d, rfl, hd⟩
  | setpc =>
    obtain ⟨d, hd⟩ := (exists_layoutW_eq_iff 0x7#4).2 h
    exact ⟨.setpc d, rfl, hd⟩
  | push =>
    obtain ⟨d, hd⟩ := (exists_layoutW_eq_iff 0x9#4).2 h
    exact ⟨.push d, rfl, hd⟩
  | getvf | geti | getpc | incpc | pop => exact ⟨_, rfl, (layoutN_eq_iff _).2 h⟩

/-- A row selects exactly the words that decode to a command of that row. -/
theorem row_selects_iff {i : Instr} {w : CommandWord} :
    i.row.selects w = true ↔ ∃ j : Instr, j.row = i.row ∧ decode w = .ok j := by
  simp only [decode_eq_ok_iff]
  refine ⟨exists_encode_eq_of_row_selects, ?_⟩
  rintro ⟨j, hrow, rfl⟩
  exact hrow ▸ row_selects_encode j

theorem eq_of_row_selects {r₁ r₂ : OpcodeRow} {w : CommandWord} (h₁ : r₁ ∈ opcodeRows)
    (h₂ : r₂ ∈ opcodeRows) (hs₁ : r₁.selects w = true) (hs₂ : r₂.selects w = true) : r₁ = r₂ := by
  obtain ⟨i₁, rfl⟩ := mem_opcodeRows_iff.1 h₁
  obtain ⟨i₂, rfl⟩ := mem_opcodeRows_iff.1 h₂
  obtain ⟨j₁, hrow₁, hd₁⟩ := row_selects_iff.1 hs₁
  obtain ⟨j₂, hrow₂, hd₂⟩ := row_selects_iff.1 hs₂
  obtain rfl : j₁ = j₂ := Except.ok.inj (hd₁.symm.trans hd₂)
  exact hrow₁.symm.trans hrow₂

/-! ## Reserved words (30_encoding.md R53) -/

theorem wellFormedWord_iff {w : CommandWord} : wellFormedWord w = true ↔ ∃ i, decode w = .ok i := by
  simp only [wellFormedWord, List.any_eq_true, mem_opcodeRows_iff]
  constructor
  · rintro ⟨_, ⟨i, rfl⟩, hs⟩
    obtain ⟨j, -, hd⟩ := row_selects_iff.1 hs
    exact ⟨j, hd⟩
  · rintro ⟨i, hd⟩
    exact ⟨i.row, ⟨i, rfl⟩, row_selects_iff.2 ⟨i, rfl, hd⟩⟩

theorem exists_eq_error_iff {e : Except Reject Instr} : (∃ r, e = .error r) ↔ ¬ ∃ i, e = .ok i := by
  cases e <;> simp

/-- The decoder refuses exactly the words that match no row. -/
theorem exists_decode_eq_error_iff {w : CommandWord} :
    (∃ r, decode w = .error r) ↔ wellFormedWord w = false := by
  rw [exists_eq_error_iff, ← wellFormedWord_iff, Bool.not_eq_true]

/-- Settles O7: each opcode's format refuses exactly what it does not answer, and no format has the opcodes
from 0xB. -/
theorem reservedWordsAreTheListedSets : Obligations.ReservedWordsAreTheListedSets := by
  refine fun w => ⟨exists_decode_eq_error_iff, ?_⟩
  simp only [← opField.eq_1, ← indexField.eq_1, ← dataField.eq_1, ← dataHighField.eq_1]
  simp only [exists_eq_error_iff, BitVec.le_def, ← BitVec.toNat_inj (x := opField w), List.mem_cons,
    List.not_mem_nil, or_false]
  unfold decode
  split
  case h_1 hop => simp [hop, decodeX_eq_ok]
  case h_2 hop => simp [hop, decodeXB_eq_ok]
  case h_4 hop => simp [hop, decodeB_eq_ok, imp_iff_not_or]
  case h_6 hop | h_8 hop | h_10 hop => simp [hop, decodeW_eq_ok]
  case h_3 hop | h_5 hop | h_7 hop | h_9 hop | h_11 hop =>
    simp [hop, decodeN_eq_ok, imp_iff_not_or]
  case h_12 =>
    have hop : 11 ≤ (opField w).toNat := by
      simp only [imp_false] at *
      omega
    simp [hop]

/-! ## Steps presented one input -/

theorem step_eq_of_decode {w : CommandWord} {i : Instr} (h : decode w = .ok i) (s : State)
    (rest : List PortInput) :
    step { s with inputs := ⟨false, true, w⟩ :: rest } = exec i { s with inputs := rest } :=
  step_of_executes (s := { s with inputs := ⟨false, true, w⟩ :: rest }) (executes_eq_some.2 ⟨rfl, rfl, h⟩)

/-- Settles O13: the clock edge of a word that decodes is its command's. -/
theorem stepRunsTheDecodedCommand : Obligations.StepRunsTheDecodedCommand :=
  fun s _ _ rest h => step_eq_of_decode h s rest

/-- Settles O6: a word that matches no row is refused, and the edge that presents it holds the state. -/
theorem reservedWordHoldsTheState : Obligations.ReservedWordHoldsTheState := by
  intro s w rest hw
  obtain ⟨r, hr⟩ := exists_decode_eq_error_iff.2 hw
  exact ⟨⟨r, hr⟩, (step_of_cons rfl).trans (clockEdge_reserved (p := ⟨false, true, w⟩) rfl rfl hr _)⟩

/-- Settles O51: the three words are those of SETI, SETPC and PUSH with the operand `d` whole. -/
theorem wordOperandsAreNotMasked : Obligations.WordOperandsAreNotMasked := by
  intro s d rest
  have hseti : decode (0x50#8 ++ d) = .ok (.seti d) := decode_eq_ok_iff.2 rfl
  have hsetpc : decode (0x70#8 ++ d) = .ok (.setpc d) := decode_eq_ok_iff.2 rfl
  have hpush : decode (0x90#8 ++ d) = .ok (.push d) := decode_eq_ok_iff.2 rfl
  refine ⟨⟨_, step_eq_of_decode hseti s rest, rfl⟩, ⟨_, step_eq_of_decode hsetpc s rest, rfl⟩,
    fun hroom => ?_⟩
  have hexec := exec_push_of_hasRoom (s := { s with inputs := rest }) hroom d
  exact ⟨_, (step_eq_of_decode hpush s rest).trans hexec, rfl⟩

/-! ## The response of the step before (60_exceptions.md R108) -/

theorem exec_with_response (i : Instr) (s : State) (r : Response) :
    exec i { s with response := r } = exec i s :=
  (exec_with_outside i s s.inputs r).trans (exec_with_outside i s s.inputs s.response).symm

theorem clockEdge_with_response (p : PortInput) (s : State) (r : Response) :
    clockEdge p { s with response := r } = clockEdge p s := by
  obtain ⟨hr, e⟩ | ⟨hr, hv, e⟩ | ⟨hr, hv, ⟨_, hd⟩, e⟩ | ⟨i, hr, hv, hd, e⟩ := clockEdge_cases p s
  · exact (clockEdge_reset hr _).trans e.symm
  · exact (clockEdge_idle hr hv _).trans e.symm
  · exact (clockEdge_reserved hr hv hd _).trans e.symm
  · exact (clockEdge_command hr hv hd _).trans ((exec_with_response i s r).trans e.symm)

theorem step_with_response (s : State) (r : Response) : step { s with response := r } = step s :=
  clockEdge_with_response s.presented s.consumed r

theorem run_with_response {m : Nat} (hm : 0 < m) (s : State) (r : Response) :
    Safety.run m { s with response := r } = Safety.run m s := by
  obtain ⟨n, rfl⟩ := Nat.exists_eq_add_one_of_ne_zero hm.ne'
  rw [run_succ, run_succ, step_with_response]

theorem responses_with_response (m : Nat) (s : State) (r : Response) :
    Safety.responses m { s with response := r } = Safety.responses m s := by
  cases m with
  | zero => rfl
  | succ n => rw [Safety.responses, Safety.responses, step_with_response]

/-! ## Idle steps (30_encoding.md R58) -/

theorem step_of_idle {p : PortInput} (hr : p.rst = false) (hv : p.cmdValid = false) (s : State)
    (rest : List PortInput) :
    step { s with inputs := p :: rest } =
      .next { s with inputs := rest, response := ⟨false, 0x0000#16, .none⟩ } :=
  (step_of_cons rfl).trans (clockEdge_idle hr hv _)

/-- Idle steps lead to the state without them, but for the response, which is an idle step's. -/
theorem run_of_idles {idles : List PortInput} (h : ∀ p ∈ idles, p.rst = false ∧ p.cmdValid = false)
    (s : State) (rest : List PortInput) :
    ∃ r, Safety.run idles.length { s with inputs := idles ++ rest } =
      .next { s with inputs := rest, response := r } := by
  induction idles generalizing s with
  | nil => exact ⟨s.response, rfl⟩
  | cons p idles ih =>
    obtain ⟨⟨hr, hv⟩, h⟩ := List.forall_mem_cons.1 h
    obtain ⟨r, ih⟩ := ih h { s with response := ⟨false, 0x0000#16, .none⟩ }
    exact ⟨r, (run_succ_of_next (step_of_idle hr hv s (idles ++ rest)) _).trans ih⟩

/-- Settles O4: the run goes on from the state the idle steps lead to, and the response they left plays no
part in it. -/
theorem idleStepsHoldTheState : Obligations.IdleStepsHoldTheState := by
  refine ⟨fun s cmd rest => step_of_idle rfl rfl s rest, fun s idles rest m h hm => ?_⟩
  obtain ⟨r, hrun⟩ := run_of_idles h s rest
  constructor
  · exact (run_add hrun m).trans (run_with_response hm { s with inputs := rest } r)
  · rw [responses_add hrun m, List.drop_left' (length_responses hrun)]
    exact responses_with_response m { s with inputs := rest } r

/-! ## What a step keeps outside the block -/

theorem stackCapacity_of_exec {i : Instr} {s t : State} (h : exec i s = .next t) :
    t.stackCapacity = s.stackCapacity := by
  cases i with
  | push w => rw [eq_of_exec_push h, State.respond_stackCapacity, State.appendEntry_stackCapacity]
  | pop => obtain rfl | ⟨w, rfl⟩ := eq_of_exec_pop h <;> rfl
  | _ =>
    cases h
    rfl

theorem stackCapacity_of_step {s t : State} (h : step s = .next t) : t.stackCapacity = s.stackCapacity := by
  obtain ⟨-, rfl⟩ | ⟨-, _, rfl⟩ | ⟨_, -, -, e⟩ := step_next_cases h
  · rfl
  · rfl
  · exact (stackCapacity_of_exec e).trans s.consumed_stackCapacity

/-- Settles O17: neither a command nor responding touches either field, and a reset step leaves both. -/
theorem everyStepTakesOneInput : Obligations.EveryStepTakesOneInput :=
  fun _ _ h => ⟨inputs_of_step h, stackCapacity_of_step h⟩

/-! ## What a command answers (30_encoding.md R56) -/

/-- The opcode map says which commands return a value (R49). -/
theorem row_returnsValue_iff {i : Instr} :
    i.row.returnsValue = true ↔ (∃ x, i = .getv x) ∨ i = .getvf ∨ i = .geti ∨ i = .getpc ∨ i = .pop := by
  cases i <;> simp [Instr.row]

theorem response_valid_of_exec {i : Instr} {s t : State} (h : exec i s = .next t) :
    t.response.valid = i.row.returnsValue := by
  cases i with
  | push w => rw [eq_of_exec_push h]; rfl
  | pop => exact response_valid_of_exec_pop h
  | _ =>
    cases h
    rfl

/-- A command that returns no value answers the data 0x0000. -/
theorem response_data_of_exec {i : Instr} {s t : State} (h : exec i s = .next t)
    (hi : i.row.returnsValue = false) : t.response.data = 0x0000#16 := by
  cases i with
  | push w => rw [eq_of_exec_push h]; rfl
  | setv | setvf | seti | setpc | incpc =>
    cases h
    rfl
  | getv | getvf | geti | getpc | pop => cases hi

/-- Settles O8: a mask and a match are those of a row's format and opcode, two rows that select a word are the
row of what it decodes to, and only the commands whose row says so answer a value. -/
theorem decodingFollowsTheOpcodeMap : Obligations.DecodingFollowsTheOpcodeMap := by
  refine ⟨fun w => ?masks, fun w r₁ h₁ r₂ h₂ => eq_of_row_selects h₁ h₂, fun w h => ?reserved,
    fun i s t h => ?answers⟩
  case masks =>
    simp only [decode_eq_ok_iff]
    exact ⟨exists_layoutX_eq_iff 0x0#4, exists_layoutXB_eq_iff 0x1#4, layoutN_eq_iff 0x2#4,
      exists_layoutB_eq_iff 0x3#4, layoutN_eq_iff 0x4#4, exists_layoutW_eq_iff 0x5#4, layoutN_eq_iff 0x6#4,
      exists_layoutW_eq_iff 0x7#4, layoutN_eq_iff 0x8#4, exists_layoutW_eq_iff 0x9#4, layoutN_eq_iff 0xA#4⟩
  case reserved => exact exists_decode_eq_error_iff.2 (List.any_eq_false.2 (by simpa using h))
  case answers => rw [response_valid_of_exec h, row_returnsValue_iff]

/-- Zero extension puts a zero byte before the byte. -/
theorem zext16_eq_append (b : Byte) : zext16 b = 0x00#8 ++ b := by
  simp [zext16, BitVec.setWidth_eq_append (show 8 ≤ 16 by omega)]

theorem response_data_of_exec_pop {s t : State} (h : exec .pop s = .next t) :
    t.response.data = s.stack.getLast?.getD 0x0000#16 := by
  change execPop s = .next t at h
  obtain ⟨hs, e⟩ | ⟨l, w, hs, e⟩ := execPop_cases s <;> cases h.symm.trans e
  · rw [hs]; rfl
  · simp [hs]

/-- A step that executes no command answers no value: it is a reset, an idle step or a reserved word's. -/
theorem response_of_step_of_executes_eq_none {s t : State} (h : step s = .next t)
    (hnone : Safety.executes s.presented = none) :
    t.response.valid = false ∧ t.response.data = 0x0000#16 := by
  obtain ⟨-, -, e⟩ | ⟨-, -, -, e⟩ | ⟨-, -, -, -, e⟩ | ⟨i, -, he, -⟩ := step_cases s
  · cases h.symm.trans e
    exact ⟨rfl, rfl⟩
  · cases h.symm.trans e
    exact ⟨rfl, rfl⟩
  · cases h.symm.trans e
    exact ⟨rfl, rfl⟩
  · simp [hnone] at he

/-- Settles O46: the value of each command that returns one, and silence in every other step. -/
theorem responseOfAStep : Obligations.ResponseOfAStep := by
  intro s t h
  refine ⟨fun x he => ?getv, fun he => ?getvf, fun he => ?geti, fun he => ?getpc, fun he => ?pop,
    fun hgetv hgetvf hgeti hgetpc hpop => ?silent⟩
  case getv =>
    cases exec_of_step h he
    exact ⟨rfl, zext16_eq_append _⟩
  case getvf =>
    cases exec_of_step h he
    exact ⟨rfl, zext16_eq_append _⟩
  case geti | getpc =>
    cases exec_of_step h he
    exact ⟨rfl, rfl⟩
  case pop =>
    have e := exec_of_step h he
    have hdata := response_data_of_exec_pop e
    exact ⟨response_valid_of_exec_pop e, hdata⟩
  case silent =>
    cases he : Safety.executes s.presented with
    | none => exact response_of_step_of_executes_eq_none h he
    | some i =>
      have e := exec_of_step h he
      have hi : i.row.returnsValue = false := by
        rw [← Bool.not_eq_true, row_returnsValue_iff]
        rintro (⟨x, rfl⟩ | rfl | rfl | rfl | rfl)
        exacts [hgetv x he, hgetvf he, hgeti he, hgetpc he, hpop he]
      exact ⟨(response_valid_of_exec e).trans hi, response_data_of_exec e hi⟩

/-- Settles O38: POP of an empty stack underflows, and POP of one entry takes it. -/
theorem underflowIsToldByDiagAlone : Obligations.UnderflowIsToldByDiagAlone := by
  intro s t hs ht
  obtain ⟨-, e⟩ | ⟨l, w, hw, -⟩ := execPop_cases s
  · refine ⟨_, _, e, exec_pop_of_stack_eq_append (l := []) ht, rfl, rfl, hs, ?_⟩
    rw [State.respond_stack, State.removeLastEntry_stack, ht]
    rfl
  · simp [hs] at hw

end Sys2Proof.Proofs

namespace Sys2Proof.Proofs

open Sys2Proof.Machine

/-! ## The parts of an assembler line (30_encoding.md R59) -/

/-- The text has a character, and a space is neither the first nor the last. -/
abbrev IsTrimmed (cs : List Char) : Prop := cs ≠ [] ∧ cs.head? ≠ some ' ' ∧ cs.getLast? ≠ some ' '

/-- A mnemonic or an operand: at least one character, and none that separates the parts of a line. -/
abbrev IsToken (cs : List Char) : Prop := cs ≠ [] ∧ ' ' ∉ cs ∧ ',' ∉ cs

theorem IsToken.isTrimmed {cs : List Char} (h : IsToken cs) : IsTrimmed cs :=
  ⟨h.1, fun hs => h.2.1 (List.mem_of_head? hs), fun hs => h.2.1 (List.mem_of_getLast? hs)⟩

theorem IsTrimmed.append_append {a b : List Char} (ha : IsTrimmed a) (hb : IsTrimmed b) (cs : List Char) :
    IsTrimmed (a ++ cs ++ b) := by
  obtain ⟨hane, hahead, -⟩ := ha
  obtain ⟨hbne, -, hblast⟩ := hb
  refine ⟨by simp [hane], ?_, ?_⟩
  · rwa [List.append_assoc, List.head?_append_of_ne_nil _ hane]
  · rwa [List.getLast?_append_of_ne_nil _ hbne]

theorem dropWhile_space_of_head?_ne {cs : List Char} (h : cs.head? ≠ some ' ') :
    cs.dropWhile (· = ' ') = cs := by
  cases cs with
  | nil => rfl
  | cons c cs => simp_all

theorem trimSpaces_of_isTrimmed {cs : List Char} (h : IsTrimmed cs) : trimSpaces cs = cs := by
  obtain ⟨-, hhead, hlast⟩ := h
  rw [← List.head?_reverse] at hlast
  rw [trimSpaces, dropWhile_space_of_head?_ne hhead, dropWhile_space_of_head?_ne hlast, List.reverse_reverse]

theorem trimSpaces_cons_space (cs : List Char) : trimSpaces (' ' :: cs) = trimSpaces cs := by
  simp [trimSpaces]

theorem splitAtCommas_append_comma {a cs : List Char} (ha : ',' ∉ a) (hcs : ',' ∉ cs) :
    splitAtCommas (a ++ ',' :: cs) = [a, cs] := by
  induction a with
  | nil => simp [splitAtCommas, splitAtCommas_of_not_mem hcs]
  | cons c a ih =>
    simp only [List.mem_cons, not_or] at ha
    simp [splitAtCommas, ih ha.2, Ne.symm ha.1]

theorem ne_space_of_not_mem {m : List Char} (h : ' ' ∉ m) : ∀ c ∈ m, decide (c ≠ ' ') = true := by
  grind

theorem assembleLine_mnemonic {m : List Char} (hm : IsToken m) : assembleLine m = assembleParts m [] := by
  obtain ⟨-, hs, -⟩ := hm
  have htake : m.takeWhile (· ≠ ' ') = m := List.takeWhile_eq_self_iff.2 (ne_space_of_not_mem hs)
  have hdrop : m.dropWhile (· ≠ ' ') = [] := List.dropWhile_eq_nil_iff.2 (ne_space_of_not_mem hs)
  have hops : operandsOf m = [] := by rw [operandsOf, hdrop]; rfl
  rw [assembleLine, trimSpaces_of_not_mem hs, htake, hops]

/-- What follows the mnemonic and a space is split into the operands. -/
theorem assembleLine_mnemonic_append {m ops : List Char} (hm : IsToken m) (hops : IsTrimmed ops) :
    assembleLine (m ++ ' ' :: ops) = assembleParts m ((splitAtCommas ops).map trimSpaces) := by
  have hne := ne_space_of_not_mem hm.2.1
  have htrim : trimSpaces (m ++ ' ' :: ops) = m ++ ' ' :: ops := by
    simpa using trimSpaces_of_isTrimmed (hm.isTrimmed.append_append hops [' '])
  have htake : (m ++ ' ' :: ops).takeWhile (· ≠ ' ') = m := by
    rw [List.takeWhile_append_of_pos hne]
    simp
  have hdrop : (m ++ ' ' :: ops).dropWhile (· ≠ ' ') = ' ' :: ops := by
    rw [List.dropWhile_append_of_pos hne]
    simp
  have hsplit : operandsOf (m ++ ' ' :: ops) = (splitAtCommas ops).map trimSpaces := by
    rw [operandsOf, hdrop, trimSpaces_cons_space, trimSpaces_of_isTrimmed hops]
    obtain ⟨c, cs, rfl⟩ := List.exists_cons_of_ne_nil hops.1
    rfl
  rw [assembleLine, htrim, htake, hsplit]

theorem assembleLine_one_operand {m a : List Char} (hm : IsToken m) (ha : IsToken a) :
    assembleLine (m ++ ' ' :: a) = assembleParts m [a] := by
  rw [assembleLine_mnemonic_append hm ha.isTrimmed, splitAtCommas_of_not_mem ha.2.2, List.map_singleton,
    trimSpaces_of_not_mem ha.2.1]

theorem assembleLine_two_operands {m a b : List Char} (hm : IsToken m) (ha : IsToken a) (hb : IsToken b) :
    assembleLine (m ++ ' ' :: (a ++ ',' :: ' ' :: b)) = assembleParts m [a, b] := by
  have hops : IsTrimmed (a ++ ',' :: ' ' :: b) := by
    simpa using ha.isTrimmed.append_append hb.isTrimmed [',', ' ']
  have hb' : ',' ∉ ' ' :: b := by simpa using hb.2.2
  rw [assembleLine_mnemonic_append hm hops, splitAtCommas_append_comma ha.2.2 hb', List.map_cons,
    List.map_singleton, trimSpaces_cons_space, trimSpaces_of_not_mem ha.2.1, trimSpaces_of_not_mem hb.2.1]

/-! ## Operands as text -/

theorem not_mem_map_hexDigit (ds : List (BitVec 4)) :
    ' ' ∉ ds.map hexDigit ∧ ',' ∉ ds.map hexDigit := by
  simp only [List.mem_map, not_exists, not_and]
  exact ⟨fun d _ => (hexDigit_ne d).1, fun d _ => (hexDigit_ne d).2.1⟩

theorem isToken_map_hexDigit {ds : List (BitVec 4)} (hds : ds ≠ []) : IsToken (ds.map hexDigit) :=
  ⟨by simpa using hds, not_mem_map_hexDigit ds⟩

theorem isToken_hex (ds : List (BitVec 4)) : IsToken ('0' :: 'x' :: ds.map hexDigit) := by
  obtain ⟨hspace, hcomma⟩ := not_mem_map_hexDigit ds
  exact ⟨by simp, by simpa using hspace, by simpa using hcomma⟩

theorem isToken_showRegister (x : RegIndex) : IsToken (showRegister x) := by
  revert x; decide

theorem readDigits_eq_ofDigits {base : Nat} {ds : List (BitVec 4)} (h : ∀ d ∈ ds, d.toNat < base) :
    readDigits base (ds.map hexDigit) = some (Nat.ofDigits base (ds.reverse.map BitVec.toNat)) := by
  rw [readDigits_map_hexDigit h, Nat.ofDigits_eq_foldr, List.map_reverse, List.foldr_reverse]
  simp [Nat.add_comm]

theorem readNumber_hex {ds : List (BitVec 4)} (hds : ds ≠ []) :
    readNumber ('0' :: 'x' :: ds.map hexDigit) = some (Nat.ofDigits 16 (ds.reverse.map BitVec.toNat)) := by
  obtain ⟨d, ds, rfl⟩ := List.exists_cons_of_ne_nil hds
  exact readDigits_eq_ofDigits fun d _ => d.isLt

/-- Decimal digits are not taken for a number with `0x`: the second character is a digit. -/
theorem readNumber_decimal {ds : List (BitVec 4)} (hds : ds ≠ []) (h : ∀ d ∈ ds, d.toNat < 10) :
    readNumber (ds.map hexDigit) = some (Nat.ofDigits 10 (ds.reverse.map BitVec.toNat)) := by
  rw [← readDigits_eq_ofDigits h]
  match ds, hds with
  | [d], _ => simp [readNumber]
  | d :: e :: ds, _ => simp [readNumber, (hexDigit_ne e).2.2]

theorem byteOperand_of_readNumber {cs : List Char} {n : Nat} (h : readNumber cs = some n) :
    byteOperand cs = if n ≤ 255 then some (BitVec.ofNat 8 n) else none := by
  simp only [byteOperand, numberOperand_of_readNumber 8 h, ← Nat.lt_succ_iff]
  rfl

theorem wordOperand_of_readNumber {cs : List Char} {n : Nat} (h : readNumber cs = some n) :
    wordOperand cs = if n ≤ 65535 then some (BitVec.ofNat 16 n) else none := by
  simp only [wordOperand, numberOperand_of_readNumber 16 h, ← Nat.lt_succ_iff]
  rfl

/-- A byte reads back from its two digits. -/
theorem byteOperand_showByte (b : Byte) : byteOperand (showByte b) = some b := by
  have hb := b.isLt
  have hn : Nat.ofDigits 16 ([b.extractLsb' 4 4, b.extractLsb' 0 4].reverse.map BitVec.toNat) = b.toNat := by
    simp [Nat.ofDigits_cons, Nat.shiftRight_eq_div_pow]
    omega
  have hread : readNumber (showByte b) = some b.toNat :=
    (readNumber_hex (List.cons_ne_nil _ _)).trans (congrArg some hn)
  rw [byteOperand_of_readNumber hread, if_pos (by omega), BitVec.ofNat_toNat, BitVec.setWidth_eq]

/-- A word reads back from its four digits. -/
theorem wordOperand_showWord (w : Word) : wordOperand (showWord w) = some w := by
  have hw := w.isLt
  have hn : Nat.ofDigits 16 ([w.extractLsb' 12 4, w.extractLsb' 8 4, w.extractLsb' 4 4,
      w.extractLsb' 0 4].reverse.map BitVec.toNat) = w.toNat := by
    simp [Nat.ofDigits_cons, Nat.shiftRight_eq_div_pow]
    omega
  have hread : readNumber (showWord w) = some w.toNat :=
    (readNumber_hex (List.cons_ne_nil _ _)).trans (congrArg some hn)
  rw [wordOperand_of_readNumber hread, if_pos (by omega), BitVec.ofNat_toNat, BitVec.setWidth_eq]

/-! ## The lines of the commands with operands -/

theorem assembleLine_getv (x : RegIndex) : assembleLine ("GETV ".toList ++ showRegister x) = some (.getv x) :=
  (assembleLine_one_operand (m := "GETV".toList) (by decide) (isToken_showRegister x)).trans
    (congrArg (Option.map Instr.getv) (registerOperand_showRegister x))

theorem assembleLine_setv (x : RegIndex) {text : List Char} (h : IsToken text) :
    assembleLine ("SETV ".toList ++ showRegister x ++ ", ".toList ++ text) =
      (byteOperand text).map (.setv x) := by
  have hparts : assembleParts "SETV".toList [showRegister x, text] = (byteOperand text).map (.setv x) :=
    congrArg (·.bind fun x => (byteOperand text).map (Instr.setv x)) (registerOperand_showRegister x)
  rw [← hparts, List.append_assoc, List.append_assoc]
  exact assembleLine_two_operands (m := "SETV".toList) (by decide) (isToken_showRegister x) h

theorem assembleLine_setvf {text : List Char} (h : IsToken text) :
    assembleLine ("SETVF ".toList ++ text) = (byteOperand text).map .setvf :=
  assembleLine_one_operand (m := "SETVF".toList) (by decide) h

theorem assembleLine_seti {text : List Char} (h : IsToken text) :
    assembleLine ("SETI ".toList ++ text) = (wordOperand text).map .seti :=
  assembleLine_one_operand (m := "SETI".toList) (by decide) h

theorem assembleLine_setpc {text : List Char} (h : IsToken text) :
    assembleLine ("SETPC ".toList ++ text) = (wordOperand text).map .setpc :=
  assembleLine_one_operand (m := "SETPC".toList) (by decide) h

theorem assembleLine_push {text : List Char} (h : IsToken text) :
    assembleLine ("PUSH ".toList ++ text) = (wordOperand text).map .push :=
  assembleLine_one_operand (m := "PUSH".toList) (by decide) h

/-- Settles O54: each line is the mnemonic and the operands as tokens, and the operands read back. -/
theorem listedCommandsAssemble : Obligations.ListedCommandsAssemble := by
  have hbyte (b : Byte) : IsToken (showByte b) := isToken_hex [_, _]
  have hword (w : Word) : IsToken (showWord w) := isToken_hex [_, _, _, _]
  intro i
  cases i with
  | getv x => exact assembleLine_getv x
  | setv x b => exact (assembleLine_setv x (hbyte b)).trans (congrArg _ (byteOperand_showByte b))
  | setvf b => exact (assembleLine_setvf (hbyte b)).trans (congrArg _ (byteOperand_showByte b))
  | seti w => exact (assembleLine_seti (hword w)).trans (congrArg _ (wordOperand_showWord w))
  | setpc w => exact (assembleLine_setpc (hword w)).trans (congrArg _ (wordOperand_showWord w))
  | push w => exact (assembleLine_push (hword w)).trans (congrArg _ (wordOperand_showWord w))
  | getvf | geti | getpc | incpc | pop => exact assembleLine_mnemonic (by decide)

/-- Settles O55: either text is a token that `readNumber` reads as `n`, and the five commands assemble as
their operand does. -/
theorem numbersAssembleWithinTheirRange : Obligations.NumbersAssembleWithinTheirRange := by
  intro ds text n hds htext
  obtain ⟨htoken, hread⟩ : IsToken text ∧ readNumber text = some n := by
    obtain ⟨rfl, rfl⟩ | ⟨hdec, rfl, rfl⟩ := htext
    · exact ⟨isToken_hex ds, readNumber_hex hds⟩
    · exact ⟨isToken_map_hexDigit hds, readNumber_decimal hds hdec⟩
  have hbyte (f : Byte → Instr) : (byteOperand text).map f =
      if n ≤ 255 then some (f (BitVec.ofNat 8 n)) else none := by
    rw [byteOperand_of_readNumber hread, apply_ite (Option.map f)]; rfl
  have hword (f : Word → Instr) : (wordOperand text).map f =
      if n ≤ 65535 then some (f (BitVec.ofNat 16 n)) else none := by
    rw [wordOperand_of_readNumber hread, apply_ite (Option.map f)]; rfl
  exact ⟨fun x => (assembleLine_setv x htoken).trans (hbyte _), (assembleLine_setvf htoken).trans (hbyte _),
    (assembleLine_seti htoken).trans (hword _), (assembleLine_setpc htoken).trans (hword _),
    (assembleLine_push htoken).trans (hword _)⟩

end Sys2Proof.Proofs

namespace Sys2Proof.Proofs

open Sys2Proof.Machine

/-! ## The command words with a byte operand (30_encoding.md R48, R52) -/

theorem layout_byteData (op : Opcode) (x : RegIndex) (b : Byte) :
    layout op x (byteData b) = op ++ x ++ 0x00#8 ++ b :=
  (BitVec.append_assoc' (x₁ := op ++ x) (x₂ := 0x00#8) (x₃ := b)).trans (BitVec.cast_eq _ _)

theorem exists_decode_eq_error_of_setv_wide {w : CommandWord} (hop : opField w = 0x1#4)
    (hhigh : dataHighField w ≠ 0#8) : ∃ r, decode w = .error r := by
  have hdecode : decode w = decodeXB .setv w := by simp [decode, hop]
  rw [exists_eq_error_iff, hdecode]
  rintro ⟨i, hi⟩
  exact hhigh (decodeXB_eq_ok.1 hi).1

/-! ## Each command of the register family by itself (40_register_access.md R65 to R68) -/

/-- A SETV writes its register, and leaves the rest of the block and what is outside it alone. -/
theorem exec_setv_writes_one_register (s : State) (x : RegIndex) (b : Byte) : ∃ t,
    exec (.setv x b) s = .next t ∧ t.readV x = b ∧ (∀ y, y ≠ x → t.readV y = s.readV y) ∧
      t.i = s.i ∧ t.pc = s.pc ∧ t.stack = s.stack ∧ Safety.SameOutside s t ∧
      t.response = ⟨false, 0x0000#16, .none⟩ :=
  ⟨_, exec_setv x b s, s.readV_writeV_self x b, fun _ h => s.readV_writeV_of_ne b h,
    rfl, rfl, rfl, ⟨rfl, rfl⟩, rfl⟩

/-- Settles O18. -/
theorem getvReturnsTheRegister : Obligations.GetvReturnsTheRegister := by
  refine ⟨fun x => decode_encode (.getv x), fun s x => exec_getv x s,
    fun s => (exec_getvf_eq_getv s).symm, fun x => ?_⟩
  rw [exec_getv, readV_reset]
  rfl

/-- Settles O19. -/
theorem setvStoresTheByte : Obligations.SetvStoresTheByte :=
  ⟨fun x b => decode_eq_ok_iff.2 (layout_byteData 0x1#4 x b), exec_setv_writes_one_register,
    fun _ => exists_decode_eq_error_of_setv_wide⟩

/-- Settles O20: GETVF is GETV of register 15. -/
theorem getvfReturnsTheFlagRegister : Obligations.GetvfReturnsTheFlagRegister :=
  ⟨decode_encode .getvf, exec_getv 0xF#4, exec_getvf_eq_getv⟩

/-- Settles O21: SETVF is SETV of register 15. -/
theorem setvfStoresTheByte : Obligations.SetvfStoresTheByte :=
  ⟨fun b => decode_eq_ok_iff.2 (layout_byteData 0x3#4 0x0#4 b),
    fun s b => exec_setv_writes_one_register s 0xF#4 b, fun s b => exec_setvf_eq_setv b s⟩

/-! ## The laws of the family (40_register_access.md R69) -/

theorem writeV_writeV_comm {x y : RegIndex} (s : State) (b c : Byte) (h : x ≠ y) :
    (s.writeV x b).writeV y c = (s.writeV y c).writeV x b := by
  have hxy : x.toNat ≠ y.toNat := fun e => h (BitVec.eq_of_toNat_eq e)
  exact congrArg (fun v => { s with v := v }) (Vector.set_comm b c hxy)

/-- Two SETVs write one after the other; the response of the first is gone. -/
theorem execAll_setv_setv (s : State) (x y : RegIndex) (b c : Byte) :
    Safety.execAll [.setv x b, .setv y c] s =
      .next (((s.writeV x b).writeV y c).respond (Response.silent .none)) :=
  execAll_pair_of_next (exec_setv x b s) (exec_setv y c _)

/-- Settles O24: two SETVs of different bytes to one register do not commute, since the register then holds the
later byte. -/
theorem registerFamilyLaws : Obligations.RegisterFamilyLaws := by
  refine ⟨fun s x b => ?readAfterWrite, fun s t x b h => ?frame, fun s x b c => ?lastWriteWins,
    fun s b => exec_setvf_eq_setv b s, exec_getvf_eq_getv, fun s x y b c hxy => ?commute,
    fun s x b c hbc heq => ?sameRegister⟩
  case readAfterWrite => exact ⟨_, _, exec_setv x b s, exec_getv x _, by simp⟩
  case frame =>
    obtain ⟨t', h', -, hv, hi, hpc, hstack, -⟩ := exec_setv_writes_one_register s x b
    obtain rfl := Host.Outcome.next.inj (h'.symm.trans h)
    exact ⟨hv, hi, hpc, hstack⟩
  case lastWriteWins => exact ⟨_, execAll_setv_setv s x x b c, by simp⟩
  case commute => rw [execAll_setv_setv, execAll_setv_setv, writeV_writeV_comm s b c hxy]
  case sameRegister =>
    rw [execAll_setv_setv, execAll_setv_setv] at heq
    have hread := congrArg (·.readV x) (Host.Outcome.next.inj heq)
    exact hbc (by simpa using hread.symm)

end Sys2Proof.Proofs

namespace Sys2Proof.Proofs

open Sys2Proof.Machine

/-! ## The address register family (41_address_register.md R75 to R77) -/

theorem exec_geti (s : State) : exec .geti s = .next (s.respond (Response.value s.i .none)) := rfl

theorem exec_seti (w : Word) (s : State) :
    exec (.seti w) s = .next ((s.writeI w).respond (Response.silent .none)) := rfl

/-- Settles O26. -/
theorem getiReturnsTheAddressRegister : Obligations.GetiReturnsTheAddressRegister :=
  ⟨decode_encode .geti, exec_geti⟩

/-- Settles O27: the printed word of SETI is its encoding, and the whole operand goes to I. -/
theorem setiStoresTheWord : Obligations.SetiStoresTheWord :=
  ⟨fun _ => decode_eq_ok_iff.2 rfl, fun s w => exec_seti w s⟩

/-- Settles O28: I holds the operand of the last SETI, and both commands leave the rest of the block alone and
answer without a diagnostic. -/
theorem addressRegisterLaws : Obligations.AddressRegisterLaws := by
  refine ⟨fun s w => ?readAfterWrite, fun s w w2 => ?lastWriteWins, fun s w i hi => ?frame⟩
  case readAfterWrite => exact ⟨_, _, exec_seti w s, exec_geti _, by simp⟩
  case lastWriteWins => exact ⟨_, execAll_pair_of_next (exec_seti w s) (exec_seti w2 _), by simp⟩
  case frame =>
    simp only [List.mem_cons, List.not_mem_nil, or_false] at hi
    obtain rfl | rfl := hi
    · exact ⟨_, exec_geti s, by simp⟩
    · exact ⟨_, exec_seti w s, by simp⟩

end Sys2Proof.Proofs

namespace Sys2Proof.Proofs

open Sys2Proof.Machine

/-! ## The program counter family (42_program_counter.md R80 to R83) -/

theorem exec_getpc (s : State) : exec .getpc s = .next (s.respond (Response.value s.pc .none)) := rfl

theorem exec_setpc (w : Word) (s : State) :
    exec (.setpc w) s = .next ((s.writePc w).respond (Response.silent .none)) := rfl

theorem exec_incpc (s : State) :
    exec .incpc s = .next ((s.writePc (s.pc + 2#16)).respond (Response.silent .none)) := rfl

/-- Commands go on from the state the commands before them have reached. -/
theorem execAll_append_of_next {is : List Instr} {s t : State} (h : Safety.execAll is s = .next t)
    (js : List Instr) : Safety.execAll (is ++ js) s = Safety.execAll js t := by
  induction is generalizing s with
  | nil => cases h; rfl
  | cons i is ih =>
    obtain ⟨u, hu⟩ | ⟨-, -, hu⟩ := exec_next_or_refused i s
    · rw [execAll_cons_of_next hu] at h
      rw [List.cons_append, execAll_cons_of_next hu, ih h]
    · simp [execAll_cons_of_refused hu] at h

/-- `n` INCPCs add `2n` to PC modulo 2^16, each of them adding 2 to what the one before it left. -/
theorem execAll_replicate_incpc (s : State) (n : Nat) :
    ∃ t, Safety.execAll (List.replicate n .incpc) s = .next t ∧
      t.pc.toNat = (s.pc.toNat + 2 * n) % 2 ^ 16 := by
  induction n generalizing s with
  | zero => exact ⟨s, rfl, (Nat.mod_eq_of_lt s.pc.isLt).symm⟩
  | succ n ih =>
    obtain ⟨t, hrun, hpc⟩ := ih ((s.writePc (s.pc + 2#16)).respond (Response.silent .none))
    refine ⟨t, (execAll_cons_of_next (exec_incpc s) _).trans hrun, ?_⟩
    rw [hpc, State.respond_pc, State.writePc_pc, BitVec.toNat_add, Nat.mod_add_mod, BitVec.toNat_ofNat]
    congr 1
    omega

/-- Settles O30. -/
theorem getpcReturnsTheProgramCounter : Obligations.GetpcReturnsTheProgramCounter :=
  ⟨decode_encode .getpc, exec_getpc⟩

/-- Settles O31: the printed word of SETPC is its encoding, and the whole operand goes to PC. -/
theorem setpcLoadsTheWord : Obligations.SetpcLoadsTheWord :=
  ⟨fun _ => decode_eq_ok_iff.2 rfl, fun s w => exec_setpc w s⟩

/-- Settles O32: the addition of words is that of numbers modulo 2^16, and adding 2 keeps the parity. -/
theorem incpcAddsTwo : Obligations.IncpcAddsTwo := by
  refine ⟨decode_encode .incpc, fun s => ?adds, fun s t h => ?parity⟩
  case adds => exact ⟨_, exec_incpc s, BitVec.toNat_add s.pc 2#16, rfl, rfl, rfl, ⟨rfl, rfl⟩, rfl⟩
  case parity => rw [pc_of_exec_incpc h, isOdd_add_two]

/-- Settles O34: PC after a run of INCPCs is counted by `execAll_replicate_incpc`, so 32768 of them add 2^16,
and a SETPC after them leaves nothing of the count. -/
theorem programCounterLaws : Obligations.ProgramCounterLaws := by
  refine ⟨fun s w => ?readAfterWrite, execAll_replicate_incpc, fun s => ?fullTurn,
    fun s n w => ?lastWriteWins, fun s t h hr => pc_of_step_of_ne h hr, fun s w i hi => ?frame⟩
  case readAfterWrite => exact ⟨_, _, exec_setpc w s, exec_getpc _, by simp⟩
  case fullTurn =>
    obtain ⟨t, hrun, hpc⟩ := execAll_replicate_incpc s 32768
    have hturn : (s.pc.toNat + 2 * 32768) % 2 ^ 16 = s.pc.toNat :=
      (Nat.add_mod_right _ _).trans (Nat.mod_eq_of_lt s.pc.isLt)
    exact ⟨t, hrun, BitVec.eq_of_toNat_eq (hpc.trans hturn)⟩
  case lastWriteWins =>
    obtain ⟨t, hrun, -⟩ := execAll_replicate_incpc s n
    refine ⟨(t.writePc w).respond (Response.silent .none), ?_, by simp⟩
    rw [execAll_append_of_next hrun, execAll_cons_of_next (exec_setpc w t), execAll_nil]
  case frame =>
    simp only [List.mem_cons, List.not_mem_nil, or_false] at hi
    obtain rfl | rfl | rfl := hi
    · exact ⟨_, exec_getpc s, by simp⟩
    · exact ⟨_, exec_setpc w s, by simp⟩
    · exact ⟨_, exec_incpc s, by simp⟩

end Sys2Proof.Proofs

namespace Sys2Proof.Proofs

open Sys2Proof.Machine

/-! ## PUSH and POP by themselves (43_call_stack.md R90, R91) -/

theorem exec_pop_of_stack_eq_nil {s : State} (h : s.stack = []) :
    exec .pop s = .next (s.respond (Response.value 0x0000#16 .stackUnderflow)) := by
  obtain ⟨-, e⟩ | ⟨l, w, hw, -⟩ := execPop_cases s
  · exact e
  · simp [h] at hw

theorem removeLastEntry_of_stack_eq_append {s : State} {l : List Word} {w : Word}
    (h : s.stack = l ++ [w]) : s.removeLastEntry = { s with stack := l } := by
  simp [State.removeLastEntry, h]

/-- Settles O36. -/
theorem pushAppendsTheWord : Obligations.PushAppendsTheWord :=
  ⟨fun _ => decode_eq_ok_iff.2 rfl, fun _ w hroom => exec_push_of_hasRoom hroom w⟩

/-- Settles O37. -/
theorem popRemovesTheLastEntry : Obligations.PopRemovesTheLastEntry := by
  refine ⟨decode_encode .pop, fun s h => exec_pop_of_stack_eq_nil h, fun s l w h => ?_⟩
  rw [exec_pop_of_stack_eq_append h, removeLastEntry_of_stack_eq_append h]
  rfl

/-! ## The stack after a step (43_call_stack.md R95) -/

/-- A POP leaves the stack without its last entry; the empty stack has none and stays empty. -/
theorem stack_of_exec_pop {s t : State} (h : exec .pop s = .next t) : t.stack = s.stack.dropLast := by
  change execPop s = .next t at h
  obtain ⟨hs, e⟩ | ⟨_, _, -, e⟩ := execPop_cases s <;> cases h.symm.trans e
  · rw [State.respond_stack, hs, List.dropLast_nil]
  · rfl

theorem stack_of_exec_of_ne {i : Instr} {s t : State} (h : exec i s = .next t)
    (hpush : ∀ w, i ≠ .push w) (hpop : i ≠ .pop) : t.stack = s.stack := by
  cases i with
  | push w => exact absurd rfl (hpush w)
  | pop => exact absurd rfl hpop
  | _ =>
    cases h
    rfl

/-- Settles O39: reset, PUSH, POP, and the frame rule for every other step. -/
theorem stackAfterAStep : Obligations.StackAfterAStep := by
  intro s t h
  refine ⟨fun hr => ?reset, fun w he => ?push, fun he => ?pop, fun hr hpush hpop => ?held⟩
  case reset => simp [eq_resetStep_of_step h hr]
  case push => exact (stack_of_exec_push (exec_of_step h he) :)
  case pop => exact (stack_of_exec_pop (exec_of_step h he) :)
  case held =>
    exact kept_by_step (f := State.stack) h hr rfl (fun _ => rfl) fun _ he e =>
      stack_of_exec_of_ne e (fun w ei => hpush w (ei ▸ he)) (fun ei => hpop (ei ▸ he))

/-! ## The one refusal (43_call_stack.md R94) -/

theorem exec_push_of_stackFull {s : State} (h : s.stackFull = true) (w : Word) :
    exec (.push w) s = .refused .stackAtCapacity := by
  obtain ⟨hroom, -⟩ | ⟨-, e⟩ := execPush_cases w s
  · simp [h] at hroom
  · exact e

/-- The steps that execute no command complete, and a command that is refused is a PUSH onto a full stack. -/
theorem step_refused {s : State} {r : Refusal} (h : step s = .refused r) :
    r = .stackAtCapacity ∧ (∃ w, Safety.executes s.presented = some (.push w)) ∧ s.stackFull = true := by
  obtain ⟨-, -, e⟩ | ⟨-, -, -, e⟩ | ⟨-, -, -, -, e⟩ | ⟨i, -, he, e⟩ := step_cases s
  · cases h.symm.trans e
  · cases h.symm.trans e
  · cases h.symm.trans e
  · obtain ⟨t, e'⟩ | ⟨hfull, ⟨w, rfl⟩, e'⟩ := exec_next_or_refused i s.consumed
    · cases h.symm.trans (e.trans e')
    · cases h.symm.trans (e.trans e')
      exact ⟨rfl, ⟨w, he⟩, hfull⟩

/-- Settles O42: the stack is full exactly when a finite capacity is reached, a full stack refuses the PUSH, and
`step_refused` leaves no other refusal. -/
theorem onlyAFullFiniteStackRefuses : Obligations.OnlyAFullFiniteStackRefuses := by
  refine ⟨fun s w c hc hlen => ?refuses, fun s r h => ?only, State.reset_stackCapacity⟩
  case refuses => exact exec_push_of_stackFull (s.stackFull_eq_true_iff.2 ⟨c, hc, hlen⟩) w
  case only =>
    obtain ⟨hr, hpush, hfull⟩ := step_refused h
    exact ⟨hr, hpush, s.stackFull_eq_true_iff.1 hfull⟩

/-! ## A finite build and the unbounded one (43_call_stack.md R94) -/

/-- A command that completes does so in the unbounded build too, and with the same effect. -/
theorem exec_unbounded_of_next {i : Instr} {s t : State} (h : exec i s = .next t) :
    exec i { s with stackCapacity := none } = .next { t with stackCapacity := none } := by
  cases i with
  | push w =>
    rw [eq_of_exec_push h]
    exact exec_push_of_hasRoom (hasRoom_of_unbounded rfl) w
  | pop =>
    obtain hnil | ⟨l, w, happend⟩ := s.stack.eq_nil_or_concat'
    · cases h.symm.trans (exec_pop_of_stack_eq_nil hnil)
      exact exec_pop_of_stack_eq_nil hnil
    · cases h.symm.trans (exec_pop_of_stack_eq_append happend)
      exact exec_pop_of_stack_eq_append happend
  | _ =>
    cases h
    rfl

theorem clockEdge_unbounded_of_next {p : PortInput} {s t : State} (h : clockEdge p s = .next t) :
    clockEdge p { s with stackCapacity := none } = .next { t with stackCapacity := none } := by
  obtain ⟨hr, e⟩ | ⟨hr, hv, e⟩ | ⟨hr, hv, ⟨_, hd⟩, e⟩ | ⟨i, hr, hv, hd, e⟩ := clockEdge_cases p s
  · cases h.symm.trans e
    exact clockEdge_reset hr _
  · cases h.symm.trans e
    exact clockEdge_idle hr hv _
  · cases h.symm.trans e
    exact clockEdge_reserved hr hv hd _
  · exact (clockEdge_command hr hv hd _).trans (exec_unbounded_of_next (e.symm.trans h))

theorem step_unbounded_of_next {s t : State} (h : step s = .next t) :
    step { s with stackCapacity := none } = .next { t with stackCapacity := none } :=
  clockEdge_unbounded_of_next (p := s.presented) (s := s.consumed) h

/-- A run that reaches a state does so by a first step and the run after it. -/
theorem exists_step_of_run_succ {n : Nat} {s t : State} (h : Safety.run (n + 1) s = .next t) :
    ∃ u, step s = .next u ∧ Safety.run n u = .next t := by
  rw [run_succ] at h
  cases hs : step s with
  | next u => exact ⟨u, rfl, by simpa [hs] using h⟩
  | fault r => simp [hs] at h
  | refused r => simp [hs] at h

/-- Settles O43, by induction on the steps: each step of the finite build is one of the unbounded build
(`step_unbounded_of_next`), with the same response. -/
theorem finiteBuildRefinesTheReference : Obligations.FiniteBuildRefinesTheReference := by
  intro n s t h
  induction n generalizing s with
  | zero =>
    cases h
    exact ⟨rfl, rfl⟩
  | succ n ih =>
    obtain ⟨u, hstep, hrun⟩ := exists_step_of_run_succ h
    obtain ⟨ihrun, ihresponses⟩ := ih u hrun
    have hstep' := step_unbounded_of_next hstep
    refine ⟨(run_succ_of_next hstep' n).trans ihrun, ?_⟩
    rw [responses_succ_of_next hstep', responses_succ_of_next hstep, ihresponses]

/-! ## Pushes and then as many pops (43_call_stack.md R92, R93) -/

/-- What a PUSH answers onto a stack of `n` entries: the length alone decides it (R90). -/
def pushResponse (n : Nat) : Response :=
  Response.silent (if n > Config.stackNominalDepth then .stackOverflowSoft else .none)

theorem exec_push_of_unbounded {s : State} (h : s.stackCapacity = none) (w : Word) :
    exec (.push w) s = .next ((s.appendEntry w).respond (pushResponse s.stack.length)) :=
  exec_push_of_hasRoom (hasRoom_of_unbounded h) w

/-- The inputs that present a PUSH of each word. -/
def pushInputs (ws : List Word) : List PortInput := ws.map (fun w => Safety.inputOf (.push w))

/-- The inputs that present `n` POPs. -/
def popInputs (n : Nat) : List PortInput := List.replicate n (Safety.inputOf .pop)

theorem step_of_inputOf_of_next {i : Instr} {s t : State} (h : exec i s = .next t) (rest : List PortInput) :
    step { s with inputs := Safety.inputOf i :: rest } = .next { t with inputs := rest } :=
  (step_of_inputOf i s rest).trans (exec_with_inputs_of_next h rest)

/-- Pushes onto the unbounded stack append their words in order, and each answers by the length before it. -/
theorem run_of_pushes {s : State} (h : s.stackCapacity = none) (ws : List Word) (rest : List PortInput) :
    ∃ r, Safety.run ws.length { s with inputs := pushInputs ws ++ rest } =
        .next { s with stack := s.stack ++ ws, inputs := rest, response := r } ∧
      Safety.responses ws.length { s with inputs := pushInputs ws ++ rest } =
        (List.range' s.stack.length ws.length).map pushResponse := by
  induction ws generalizing s with
  | nil => exact ⟨s.response, by simp [pushInputs], rfl⟩
  | cons w ws ih =>
    obtain ⟨r, ihrun, ihresponses⟩ := ih (s := (s.appendEntry w).respond (pushResponse s.stack.length)) h
    have hstep := step_of_inputOf_of_next (exec_push_of_unbounded h w) (pushInputs ws ++ rest)
    refine ⟨r, (run_succ_of_next hstep _).trans (ihrun.trans ?_), ?_⟩
    · simp [State.appendEntry, State.respond]
    · refine (responses_succ_of_next hstep _).trans (congrArg (pushResponse s.stack.length :: ·) ?_)
      simpa using ihresponses

/-- As many pops as the words on top of the stack take these off, the last first, whatever lies below. -/
theorem run_of_pops {s : State} {l ws : List Word} (h : s.stack = l ++ ws) (rest : List PortInput) :
    ∃ r, Safety.run ws.length { s with inputs := popInputs ws.length ++ rest } =
        .next { s with stack := l, inputs := rest, response := r } ∧
      Safety.responses ws.length { s with inputs := popInputs ws.length ++ rest } =
        ws.reverse.map (Response.value · .none) := by
  induction ws using List.reverseRecOn generalizing s with
  | nil =>
    obtain rfl : s.stack = l := by simpa using h
    exact ⟨s.response, rfl, rfl⟩
  | append_singleton ws w ih =>
    have htop : s.stack = (l ++ ws) ++ [w] := by rw [h, List.append_assoc]
    obtain ⟨r, ihrun, ihresponses⟩ :=
      ih (s := s.removeLastEntry.respond (Response.value w .none)) (by simp [htop])
    have hstep := step_of_inputOf_of_next (exec_pop_of_stack_eq_append htop)
      (popInputs ws.length ++ rest)
    rw [List.length_append, List.length_singleton, List.reverse_concat, List.map_cons]
    exact ⟨r, (run_succ_of_next hstep _).trans ihrun,
      (responses_succ_of_next hstep _).trans (congrArg (Response.value w .none :: ·) ihresponses)⟩

/-- Pushes and then as many pops hold the block: the pops answer the words of the pushes in reverse. -/
theorem run_of_pushes_and_pops {s : State} (h : s.stackCapacity = none) (ws : List Word)
    (rest : List PortInput) :
    ∃ r, Safety.run (ws.length + ws.length)
          { s with inputs := pushInputs ws ++ (popInputs ws.length ++ rest) } =
        .next { s with inputs := rest, response := r } ∧
      Safety.responses (ws.length + ws.length)
          { s with inputs := pushInputs ws ++ (popInputs ws.length ++ rest) } =
        (List.range' s.stack.length ws.length).map pushResponse ++
          ws.reverse.map (Response.value · .none) := by
  obtain ⟨r, hpushes, hpushed⟩ := run_of_pushes h ws (popInputs ws.length ++ rest)
  obtain ⟨r', hpops, hpopped⟩ :=
    run_of_pops (s := { s with stack := s.stack ++ ws, response := r }) (l := s.stack) rfl rest
  refine ⟨r', (run_add hpushes _).trans hpops, ?_⟩
  rw [responses_add hpushes, hpushed]
  exact congrArg _ hpopped

/-- Settles O40: the responses after those of the pushes are the pops'. -/
theorem stackIsLastInFirstOut : Obligations.StackIsLastInFirstOut := by
  intro s ws rest h
  obtain ⟨r, hrun, hresponses⟩ := run_of_pushes_and_pops h ws rest
  rw [two_mul, List.append_assoc]
  refine ⟨_, hrun, ⟨rfl, rfl, rfl, rfl⟩, rfl, ?_⟩
  exact (congrArg (List.drop ws.length) hresponses).trans (List.drop_left' (by simp))

/-- Settles O41: the twenty pushes answer by the lengths 0 to 19 before them, the twenty pops lead back to the
empty stack, and there the 21st pop underflows. -/
theorem twentyDeepLosesNothing : Obligations.TwentyDeepLosesNothing := by
  intro ws hlen
  obtain ⟨r, hrun, hresponses⟩ :=
    run_of_pushes_and_pops State.reset_stackCapacity ws [Safety.inputOf .pop]
  have hunderflow : step { State.reset with inputs := [Safety.inputOf .pop], response := r } =
      .next (State.reset.respond (Response.value 0x0000#16 .stackUnderflow)) :=
    step_of_inputOf_of_next (s := { State.reset with response := r }) (exec_pop_of_stack_eq_nil rfl) []
  have hpushed : (List.range' 0 20).map pushResponse =
      List.replicate 17 ⟨false, 0x0000#16, .none⟩ ++
        List.replicate 3 ⟨false, 0x0000#16, .stackOverflowSoft⟩ := by decide
  have hall := responses_add hrun 1
  rw [hresponses, responses_succ_of_next hunderflow, hlen] at hall
  exact hall.trans (congrArg (· ++ _ ++ _) hpushed)

end Sys2Proof.Proofs

namespace Sys2Proof.Proofs

open Sys2Proof.Machine

/-! ## Completion (60_exceptions.md R105) -/

/-- A build without a capacity is never full, so a PUSH there is not refused. -/
theorem exists_exec_eq_next_of_unbounded {s : State} (h : s.stackCapacity = none) (i : Instr) :
    ∃ t, exec i s = .next t := by
  obtain hnext | ⟨hfull, -⟩ := exec_next_or_refused i s
  · exact hnext
  · simp [State.stackFull_of_unbounded h] at hfull

theorem exists_step_eq_next_of_unbounded {s : State} (h : s.stackCapacity = none) :
    ∃ t, step s = .next t := by
  cases hs : step s with
  | next t => exact ⟨t, rfl⟩
  | fault f => cases f
  | refused r =>
    obtain ⟨-, -, hfull⟩ := step_refused hs
    simp [State.stackFull_of_unbounded h] at hfull

/-- Settles O15, by induction on the length of the run: a step of the unbounded build completes and leaves it
unbounded. -/
theorem everyStepCompletes : Obligations.EveryStepCompletes := by
  refine ⟨fun i s h => exists_exec_eq_next_of_unbounded h i, fun n => ?runs⟩
  induction n with
  | zero => exact fun s h => ⟨s, rfl, h⟩
  | succ n ih =>
    intro s h
    obtain ⟨u, hstep⟩ := exists_step_eq_next_of_unbounded h
    rw [run_succ_of_next hstep]
    exact ih u ((stackCapacity_of_step hstep).trans h)

/-! ## The response of a step is its own (60_exceptions.md R108) -/

/-- Settles O16: the first step overwrites the response without reading it. -/
theorem pastResponsesNeverMatter : Obligations.PastResponsesNeverMatter :=
  fun s r n => ⟨run_with_response n.succ_pos s r, responses_with_response n s r⟩

/-! ## The diagnostic of a command (60_exceptions.md R107, R109) -/

theorem pushDiag_cases (s : State) :
    (16 < s.stack.length ∧ s.pushDiag = .stackOverflowSoft) ∨
      (¬ 16 < s.stack.length ∧ s.pushDiag = .none) := by
  unfold State.pushDiag Config.stackNominalDepth
  split <;> simp_all

theorem response_diag_of_exec_of_ne {i : Instr} {s t : State} (h : exec i s = .next t)
    (hpush : ∀ w, i ≠ .push w) (hpop : i ≠ .pop) : t.response.diag = .none := by
  cases i with
  | push w => exact absurd rfl (hpush w)
  | pop => exact absurd rfl hpop
  | _ =>
    cases h
    rfl

/-- The commands with a diagnostic are a PUSH above the nominal depth and a POP of an empty stack. -/
theorem response_diag_of_exec_cases {i : Instr} {s t : State} (h : exec i s = .next t) :
    ((∃ w, i = .push w) ∧ 16 < s.stack.length ∧ t.response.diag = .stackOverflowSoft) ∨
    (i = .pop ∧ s.stack = [] ∧ t.response = Response.value 0x0000#16 .stackUnderflow) ∨
    (((∃ w, i = .push w) → ¬ 16 < s.stack.length) ∧ (i = .pop → s.stack ≠ []) ∧
      t.response.diag = .none) := by
  cases i with
  | push w =>
    obtain rfl := eq_of_exec_push h
    obtain ⟨hlen, hd⟩ | ⟨hlen, hd⟩ := pushDiag_cases s
    · exact .inl ⟨⟨w, rfl⟩, hlen, hd⟩
    · exact .inr (.inr ⟨fun _ => hlen, by simp, hd⟩)
  | pop =>
    obtain hnil | ⟨l, w, happend⟩ := s.stack.eq_nil_or_concat'
    · cases h.symm.trans (exec_pop_of_stack_eq_nil hnil)
      exact .inr (.inl ⟨rfl, hnil, rfl⟩)
    · cases h.symm.trans (exec_pop_of_stack_eq_append happend)
      exact .inr (.inr ⟨by simp, by simp [happend], rfl⟩)
  | _ => exact .inr (.inr ⟨by simp, by simp, response_diag_of_exec_of_ne h (by simp) (by simp)⟩)

/-! ## The diagnostic of a step -/

theorem presentsReserved_iff {p : PortInput} :
    Safety.presentsReserved p = true ↔
      p.rst = false ∧ p.cmdValid = true ∧ ∃ r, decode p.cmd = .error r := by
  simp [Safety.presentsReserved, exists_decode_eq_error_iff, and_assoc]

/-- What is executed decodes, and what decodes is not reserved. -/
theorem presentsReserved_of_executes {p : PortInput} {i : Instr} (h : Safety.executes p = some i) :
    Safety.presentsReserved p = false := by
  obtain ⟨-, -, hd⟩ := executes_eq_some.1 h
  rw [← Bool.not_eq_true, presentsReserved_iff]
  simp [hd]

/-- A step that executes no command has a diagnostic exactly when it is a reserved word's. -/
theorem response_diag_of_step_of_executes_eq_none {s t : State} (h : step s = .next t)
    (hnone : Safety.executes s.presented = none) :
    (Safety.presentsReserved s.presented = true ∧ t.response.diag = .illegalCommand) ∨
      (Safety.presentsReserved s.presented = false ∧ t.response.diag = .none) := by
  obtain ⟨hr, -, e⟩ | ⟨-, hv, -, e⟩ | ⟨hr, hv, hd, -, e⟩ | ⟨i, -, he, -⟩ := step_cases s
  · cases h.symm.trans e
    exact .inr ⟨by simp [Safety.presentsReserved, hr], rfl⟩
  · cases h.symm.trans e
    exact .inr ⟨by simp [Safety.presentsReserved, hv], rfl⟩
  · cases h.symm.trans e
    exact .inl ⟨presentsReserved_iff.2 ⟨hr, hv, hd⟩, rfl⟩
  · simp [hnone] at he

/-- Settles O47: a step without a command can only be illegal, and a command's diagnostics are those of
`response_diag_of_exec_cases`. -/
theorem diagnosticOfAStep : Obligations.DiagnosticOfAStep := by
  refine ⟨⟨rfl, rfl, rfl, rfl⟩, fun s t h => ?_⟩
  cases he : Safety.executes s.presented with
  | none =>
    obtain ⟨hp, hd⟩ | ⟨hp, hd⟩ := response_diag_of_step_of_executes_eq_none h he <;> simp [hp, hd]
  | some i =>
    have hp := presentsReserved_of_executes he
    have hcases := response_diag_of_exec_cases (exec_of_step h he)
    rw [State.consumed_stack] at hcases
    obtain ⟨⟨w, rfl⟩, hlen, hd⟩ | ⟨rfl, hnil, hr⟩ | ⟨hpush, hpop, hd⟩ := hcases
    · simp [hp, hd, hlen]
    · simp [hp, hr, hnil]
    · simpa [hp, hd] using ⟨hpop, fun w hw => not_lt.1 (hpush ⟨w, hw⟩)⟩

/-- Settles O48: a refused command is a PUSH, and the steps with a diagnostic are those of O47. -/
theorem nineCommandsAreSilent : Obligations.NineCommandsAreSilent := by
  refine ⟨fun i s hpush hpop => ?nine, fun s t h hd => ?only⟩
  case nine =>
    obtain ⟨t, h⟩ | ⟨-, ⟨w, hw⟩, -⟩ := exec_next_or_refused i s
    · exact ⟨t, h, response_diag_of_exec_of_ne h hpush hpop⟩
    · exact absurd hw (hpush w)
  case only =>
    obtain ⟨hunderflow, -, hsoft, hillegal⟩ := diagnosticOfAStep.2 s t h
    cases hdiag : t.response.diag with
    | none => exact absurd hdiag hd
    | stackUnderflow => exact .inr (.inl (hunderflow.1 hdiag).1)
    | stackOverflowSoft => exact .inl (hsoft.1 hdiag).1
    | illegalCommand => exact .inr (.inr (hillegal.1 hdiag))

/-! ## States told apart by their answers (10_state.md section 6) -/

/-- The two states answer every sequence of inputs alike. -/
def AnswersAlike (s t : State) : Prop :=
  ∀ (ins : List PortInput) (n : Nat),
    Safety.responses n { s with inputs := ins } = Safety.responses n { t with inputs := ins }

/-- States that answer alike answer each command alike, and still do so after it. -/
theorem AnswersAlike.of_exec {s t s' t' : State} {i : Instr} (h : AnswersAlike s t)
    (hs : exec i s = .next s') (ht : exec i t = .next t') :
    s'.response = t'.response ∧ AnswersAlike s' t' := by
  have hcons : ∀ (ins : List PortInput) (n : Nat),
      s'.response :: Safety.responses n { s' with inputs := ins } =
        t'.response :: Safety.responses n { t' with inputs := ins } := fun ins n => by
    have hrun := h (Safety.inputOf i :: ins) (n + 1)
    rwa [responses_succ_of_next (step_of_inputOf_of_next hs ins),
      responses_succ_of_next (step_of_inputOf_of_next ht ins)] at hrun
  exact ⟨(List.cons.inj (hcons [] 0)).1, fun ins n => (List.cons.inj (hcons ins n)).2⟩

/-- The low byte of a zero-extended byte is that byte. -/
theorem zext16_injective : Function.Injective zext16 :=
  Function.LeftInverse.injective (g := BitVec.setWidth 8) fun b =>
    (BitVec.setWidth_setWidth_of_le b (by omega)).trans (BitVec.setWidth_eq b)

/-- GETV of each index tells the registers apart, for zero extension loses nothing. -/
theorem AnswersAlike.v_eq {s t : State} (h : AnswersAlike s t) : t.v = s.v := by
  refine State.v_eq_of_readV_eq fun x => ?_
  have hdata := congrArg Response.data (h.of_exec (exec_getv x s) (exec_getv x t)).1
  exact zext16_injective hdata.symm

theorem AnswersAlike.i_eq {s t : State} (h : AnswersAlike s t) : t.i = s.i :=
  (congrArg Response.data (h.of_exec (exec_geti s) (exec_geti t)).1).symm

theorem AnswersAlike.pc_eq {s t : State} (h : AnswersAlike s t) : t.pc = s.pc :=
  (congrArg Response.data (h.of_exec (exec_getpc s) (exec_getpc t)).1).symm

/-- POP tells an empty stack by its diagnostic and any other by its last entry, and the stacks below still
answer alike. -/
theorem AnswersAlike.stack_eq {s t : State} {l : List Word} (h : AnswersAlike s t) (hs : s.stack = l) :
    t.stack = l := by
  induction l using List.reverseRecOn generalizing s t with
  | nil =>
    obtain ht | ⟨l', w', ht⟩ := t.stack.eq_nil_or_concat'
    · exact ht
    · have hr := (h.of_exec (exec_pop_of_stack_eq_nil hs) (exec_pop_of_stack_eq_append ht)).1
      cases congrArg Response.diag hr
  | append_singleton l w ih =>
    obtain ht | ⟨l', w', ht⟩ := t.stack.eq_nil_or_concat'
    · have hr := (h.of_exec (exec_pop_of_stack_eq_append hs) (exec_pop_of_stack_eq_nil ht)).1
      cases congrArg Response.diag hr
    · obtain ⟨hr, hbelow⟩ :=
        h.of_exec (exec_pop_of_stack_eq_append hs) (exec_pop_of_stack_eq_append ht)
      have hw : w = w' := congrArg Response.data hr
      have hl : l' = l := by simpa [ht] using ih hbelow (by simp [hs])
      rw [ht, hl, hw]

/-- Settles O53: the commands that return a value read out the whole block. -/
theorem answersDetermineTheBlock : Obligations.AnswersDetermineTheBlock :=
  fun s t _ _ h =>
    have halike : AnswersAlike s t := h
    ⟨halike.v_eq, halike.i_eq, halike.pc_eq, halike.stack_eq rfl⟩

end Sys2Proof.Proofs

namespace Sys2Proof.Proofs

open Sys2Proof.Machine

/-! ## Reset (70_reset_and_hazards.md R125, R127) -/

/-- A reset step leads to the reset state with the inputs to come and the capacity of the build: of the state
before, only the capacity stands in the one after. -/
theorem step_of_reset {p : PortInput} (hr : p.rst = true) (s : State) (rest : List PortInput) :
    step { s with inputs := p :: rest } =
      .next { State.reset with inputs := rest, stackCapacity := s.stackCapacity } :=
  (step_of_cons rfl).trans (clockEdge_reset hr _)

/-- States that step alike run alike from the first step on. -/
theorem run_succ_congr {s t : State} (h : step s = step t) (n : Nat) :
    Safety.run (n + 1) s = Safety.run (n + 1) t := by
  rw [run_succ, run_succ, h]

/-- States that step alike answer alike. -/
theorem responses_congr {s t : State} (h : step s = step t) (n : Nat) :
    Safety.responses n s = Safety.responses n t := by
  cases n with
  | zero => rfl
  | succ n => rw [Safety.responses, Safety.responses, h]

/-- Settles O2. -/
theorem resetStepOverridesTheCommand : Obligations.ResetStepOverridesTheCommand :=
  fun s _ _ rest => step_of_reset rfl s rest

/-- Settles O3: the reset step leads two blocks of one build to the same state, where they run and answer
alike. -/
theorem nothingSurvivesAReset : Obligations.NothingSurvivesAReset := by
  intro s t p rest n hr hcap
  have hstep : step { s with inputs := p :: rest } = step { t with inputs := p :: rest } := by
    rw [step_of_reset hr, step_of_reset hr, hcap]
  exact ⟨run_succ_congr hstep n, responses_congr hstep n⟩

/-! ## The conventions of one command (70_reset_and_hazards.md R131) -/

@[simp] theorem conventional_seti {w : Word} {s : State} :
    Safety.conventional (.seti w) s = true ↔ Safety.masked w = true := Iff.rfl

@[simp] theorem conventional_setpc {w : Word} {s : State} :
    Safety.conventional (.setpc w) s = true ↔ Safety.masked w = true ∧ Safety.isOdd w = false := by
  simp [Safety.conventional]

@[simp] theorem conventional_push {w : Word} {s : State} :
    Safety.conventional (.push w) s = true ↔ s.stack.length < 16 := decide_eq_true_iff

@[simp] theorem conventional_pop {s : State} :
    Safety.conventional .pop s = true ↔ s.stack ≠ [] := by
  simp [Safety.conventional]

/-! ## The conventions are kept -/

/-- A legal capacity is at least 20 (43_call_stack.md R94), so 16 nested calls never fill the stack. -/
theorem stackFull_of_length_le {s : State} (hcap : wellFormedCapacity s.stackCapacity = true)
    (hlen : s.stack.length ≤ 16) : s.stackFull = false := by
  refine s.stackFull_eq_false_iff.2 fun c hc => ?_
  rw [hc] at hcap
  have hmin : 20 ≤ c := of_decide_eq_true hcap
  omega

/-- Any property of I is kept by a command, if a value that SETI loads has it. -/
theorem i_property_of_exec {P : Word → Prop} {i : Instr} {s t : State} (h : exec i s = .next t)
    (hi : P s.i) (hload : ∀ w, i = .seti w → P w) : P t.i := by
  by_cases hset : ∃ w, i = .seti w
  · obtain ⟨w, rfl⟩ := hset
    rw [i_of_exec_seti h]
    exact hload w rfl
  · rw [i_of_exec_of_ne_seti h fun w hw => hset ⟨w, hw⟩]
    exact hi

/-- A bound on the stack is kept by a command, if a PUSH is made below it only. -/
theorem length_stack_of_exec_le {i : Instr} {s t : State} {d : Nat} (h : exec i s = .next t)
    (hlen : s.stack.length ≤ d) (hpush : ∀ w, i = .push w → s.stack.length < d) :
    t.stack.length ≤ d := by
  cases i with
  | push w =>
    rw [stack_of_exec_push h, List.length_append]
    exact hpush w rfl
  | pop =>
    rw [stack_of_exec_pop h, List.length_dropLast]
    omega
  | _ => rwa [stack_of_exec_of_ne h (by simp) (by simp)]

/-- A command that keeps the conventions is neither a PUSH above the nominal depth nor a POP of an empty
stack, the two commands with a diagnostic. -/
theorem response_diag_of_conventional {i : Instr} {s t : State} (h : exec i s = .next t)
    (hi : Safety.conventional i s = true) : t.response.diag = .none := by
  obtain ⟨⟨w, rfl⟩, hdeep, -⟩ | ⟨rfl, hnil, -⟩ | ⟨-, -, hd⟩ := response_diag_of_exec_cases h
  · have hlen := conventional_push.1 hi
    omega
  · exact absurd hnil (conventional_pop.1 hi)
  · exact hd

/-- A command that keeps the conventions leads from a state that does to one that does, register by
register. -/
theorem conventional_of_exec {i : Instr} {s t : State} (h : exec i s = .next t)
    (hs : Safety.Conventional s) (hi : Safety.conventional i s = true) : Safety.Conventional t := by
  obtain ⟨heven, hmasked, hlen⟩ := hs
  refine ⟨?pc, ?i, ?stack⟩
  case pc =>
    refine isOdd_pc_of_exec h heven ?_
    rintro w rfl
    exact (conventional_setpc.1 hi).2
  case i =>
    refine i_property_of_exec (P := (Safety.masked · = true)) h hmasked ?_
    rintro w rfl
    exact conventional_seti.1 hi
  case stack =>
    refine length_stack_of_exec_le h hlen ?_
    rintro w rfl
    exact conventional_push.1 hi

/-- Settles O52: the only refusal is of a PUSH onto a full stack, which no legal build has at this depth. -/
theorem conventionalCallerIsServedInSilence : Obligations.ConventionalCallerIsServedInSilence := by
  intro i s hcap hs hi
  obtain ⟨t, h⟩ | ⟨hfull, -⟩ := exec_next_or_refused i s
  · exact ⟨t, h, response_diag_of_conventional h hi, conventional_of_exec h hs hi⟩
  · obtain ⟨-, -, hlen⟩ := hs
    simp [stackFull_of_length_le hcap hlen] at hfull

end Sys2Proof.Proofs

namespace Sys2Proof.Proofs

open Sys2Proof.Machine

/-! ## The stack and the capacity of the build (10_state.md section 1, 43_call_stack.md R94) -/

theorem hasRoom_of_exec_push {s t : State} {w : Word} (h : exec (.push w) s = .next t) : Safety.HasRoom s := by
  refine (hasRoom_iff s).2 (Bool.eq_false_iff.2 fun hfull => ?_)
  cases h.symm.trans (exec_push_of_stackFull hfull w)

/-- Every capacity of the build is a bound on the stack that a PUSH keeps, since it completes only where there
is room. -/
theorem stackFits_of_exec {i : Instr} {s t : State} (h : exec i s = .next t) (hs : Safety.StackFits s) :
    Safety.StackFits t := by
  intro c hc
  rw [stackCapacity_of_exec h] at hc
  refine length_stack_of_exec_le h (hs c hc) ?_
  rintro w rfl
  exact hasRoom_of_exec_push h c hc

/-- Settles O44: a reset step empties the stack, a step without a command holds it, and a command keeps it
within the capacity by `stackFits_of_exec`. -/
theorem stackFitsIsKept : Obligations.StackFitsIsKept := by
  intro s t hs h
  obtain ⟨-, rfl⟩ | ⟨-, _, rfl⟩ | ⟨_, -, -, e⟩ := step_next_cases h
  · simp [Safety.StackFits]
  · exact hs
  · exact stackFits_of_exec e hs

/-! ## The encoding examples (30_encoding.md section 9) -/

/-- Settles O12: each of the nine words is the encoding of the command printed beside it, and the decoder
computes the reason of each reserved word. -/
theorem printedWordsDecodeAsPrinted : Obligations.PrintedWordsDecodeAsPrinted := by
  refine ⟨?_, ?_, ?_, ?_, ?_, ?_, ?_, ?_, ?_, rfl, rfl, rfl, rfl⟩
  all_goals exact decode_eq_ok_iff.2 rfl

end Sys2Proof.Proofs
